-- ==== Sys2Proof/Word.lean ====
section
/-! DEFINITION. The value types of 00_scope.md R3 to R6 and R10: bytes, 16-bit words, nibbles and register numbers. -/

namespace Sys2Proof

/-- An unsigned byte (R10): the contents of a register, a memory cell or the program counter, and an address (R5). -/
abbrev Byte := BitVec 8

/-- A 16-bit instruction word `W = byte1 ++ byte2` (R12, R30). -/
abbrev Word := BitVec 16

/-- A 4-bit half of a byte (R9). -/
abbrev Nibble := BitVec 4

/-- A register number, `R0` to `RF` (R4, R20). -/
abbrev Reg := Fin 16

end Sys2Proof
end

