-- ==== Sys2Proof/Syntax.lean ====
section
/-! DEFINITION. The instructions as syntax: one constructor of `Instr` for each row of spec/opcode_table.json, the
operations (`Opcode`) and the five formats of 30_encoding.md R82, and the decoder's one way to reject. -/

namespace Sys2Proof

/-- The 15 operations of R84. -/
inductive Opcode where
  | directLoad | immediateLoad | directStore | move | integerAdd | floatingPointAdd | or | and | xor | ror
  | jumpEqual | halt | indirectLoad | indirectStore | jumpLessEqual
  deriving DecidableEq, Repr

/-- The five instruction formats of R82. -/
inductive Format where
  /-- Register and 8-bit operand. -/
  | rxy
  /-- Destination and two source registers. -/
  | rst
  /-- Two registers; the first operand nibble is ignored. -/
  | zrs
  /-- Register and count; the second operand nibble is ignored. -/
  | r0n
  /-- No operand; all three operand nibbles are ignored. -/
  | n
  deriving DecidableEq, Repr

/-- One constructor per row of spec/opcode_table.json, its operands in the order of the word's fields. Ignored nibbles
(R87) are no operands. -/
inductive Instr where
  /-- `load Rr,[xy]` (R162). -/
  | directLoad (r : Reg) (xy : Byte)
  /-- `load Rr,xy` (R160). -/
  | immediateLoad (r : Reg) (xy : Byte)
  /-- `store Rr,[xy]` (R166). -/
  | directStore (r : Reg) (xy : Byte)
  /-- `move Rb,Rc`: `src` is copied to `dst` (R170). -/
  | move (src dst : Reg)
  /-- `addi Rd,Rs,Rt` (R180). -/
  | integerAdd (d s t : Reg)
  /-- `addf Rd,Rs,Rt` (R182). -/
  | floatingPointAdd (d s t : Reg)
  /-- `or Rd,Rs,Rt` (R184). -/
  | or (d s t : Reg)
  /-- `and Rd,Rs,Rt` (R186). -/
  | and (d s t : Reg)
  /-- `xor Rd,Rs,Rt` (R188). -/
  | xor (d s t : Reg)
  /-- `ror Rr,n` (R190); a count above 15 is no instruction (R100), which `Instr.wellFormed` checks. -/
  | ror (r : Reg) (n : Nat)
  /-- `jmpeq Rr,xy`; `jmp xy` when `r` is R0 (R200, R204). -/
  | jumpEqual (r : Reg) (xy : Byte)
  /-- `halt` (R206). -/
  | halt
  /-- `load Rb,[Rc]` (R164). -/
  | indirectLoad (b c : Reg)
  /-- `store Rb,[Rc]` (R168). -/
  | indirectStore (b c : Reg)
  /-- `jmple Rr,xy` (R202). -/
  | jumpLessEqual (r : Reg) (xy : Byte)
  /-- A word with opcode nibble 0, to which the source gives no meaning (R86, R137). -/
  | unassignedOpcode0
  deriving DecidableEq, Repr

/-- Why a byte sequence is no instruction. Every 16-bit word decodes (R85), so the only reason is its length (R80). -/
inductive DecodeError where
  /-- Fewer than the two bytes that every instruction has (R7, R80). -/
  | truncated
  deriving DecidableEq, Repr

end Sys2Proof
end

