-- ==== Sys2Proof/WellFormed.lean ====
section
/-! DEFINITION. Which terms of `Instr` are instructions. Registers and 8-bit operands are well-formed by their types
(R83: every value is valid), so the one check is the rotate count's. -/

namespace Sys2Proof

/-- A rotate count is a 4-bit number, 0 to 15 (R83, R100). -/
def countInRange (n : Nat) : Bool := n < 16

/-- The well-formed instructions: those an instruction word can hold. -/
def Instr.wellFormed : Instr → Bool
  | .directLoad _ _ => true
  | .immediateLoad _ _ => true
  | .directStore _ _ => true
  | .move _ _ => true
  | .integerAdd _ _ _ => true
  | .floatingPointAdd _ _ _ => true
  | .or _ _ _ => true
  | .and _ _ _ => true
  | .xor _ _ _ => true
  | .ror _ n => countInRange n
  | .jumpEqual _ _ => true
  | .halt => true
  | .indirectLoad _ _ => true
  | .indirectStore _ _ => true
  | .jumpLessEqual _ _ => true
  | .unassignedOpcode0 => true

end Sys2Proof
end

