-- ==== Sys2Proof/Decode.lean ====
section
/-! DEFINITION. The decoder of 30_encoding.md R80 to R87, total on all words and on all byte sequences, and the encoder
written from the same tables. -/

namespace Sys2Proof

/-! ## Fields (R81) -/

/-- `op = W[15:12]`. -/
def opField (w : Word) : Nibble := w.extractLsb' 12 4
/-- `a = W[11:8]`. -/
def aField (w : Word) : Nibble := w.extractLsb' 8 4
/-- `b = W[7:4]`. -/
def bField (w : Word) : Nibble := w.extractLsb' 4 4
/-- `c = W[3:0]`. -/
def cField (w : Word) : Nibble := w.extractLsb' 0 4
/-- `xy = W[7:0]`, which is byte2. -/
def xyField (w : Word) : Byte := w.extractLsb' 0 8
/-- byte1 of a word: its bits 15 to 8. -/
def byte1 (w : Word) : Byte := w.extractLsb' 8 8
/-- byte2 of a word: its bits 7 to 0. -/
def byte2 (w : Word) : Byte := w.extractLsb' 0 8

/-- `W = byte1 ++ byte2` (R30, R56). -/
def wordOfBytes (b1 b2 : Byte) : Word := b1 ++ b2

/-- A register operand is a nibble that names the register directly (R83). -/
def regOfNibble (n : Nibble) : Reg := n.toFin
/-- The nibble that names a register. -/
def nibbleOfReg (r : Reg) : Nibble := BitVec.ofFin r

/-- The source field of Move: `b` (`moveSrcField` of R8; 92_eei_decisions.md D7). -/
def moveSrcField (w : Word) : Nibble := bField w
/-- The destination field of Move: `c` (`moveDstField` of R8; D7). -/
def moveDstField (w : Word) : Nibble := cField w

/-! ## The opcode map (R84, R8 `opcodeMap`; 92_eei_decisions.md D1, assumption log 4) -/

/-- The operation an opcode nibble selects; nibble 0x0 is assigned to none (R86). -/
def opcodeMap (n : Nibble) : Option Opcode :=
  match n.toNat with
  | 0x1 => some .directLoad
  | 0x2 => some .immediateLoad
  | 0x3 => some .directStore
  | 0x4 => some .move
  | 0x5 => some .integerAdd
  | 0x6 => some .floatingPointAdd
  | 0x7 => some .or
  | 0x8 => some .and
  | 0x9 => some .xor
  | 0xA => some .ror
  | 0xB => some .jumpEqual
  | 0xC => some .halt
  | 0xD => some .indirectLoad
  | 0xE => some .indirectStore
  | 0xF => some .jumpLessEqual
  | _ => none

/-- The opcode nibble of an operation: the same table of R84, read the other way. -/
def Opcode.nibble : Opcode → Nibble
  | .directLoad => 0x1#4
  | .immediateLoad => 0x2#4
  | .directStore => 0x3#4
  | .move => 0x4#4
  | .integerAdd => 0x5#4
  | .floatingPointAdd => 0x6#4
  | .or => 0x7#4
  | .and => 0x8#4
  | .xor => 0x9#4
  | .ror => 0xA#4
  | .jumpEqual => 0xB#4
  | .halt => 0xC#4
  | .indirectLoad => 0xD#4
  | .indirectStore => 0xE#4
  | .jumpLessEqual => 0xF#4

/-- The format of each operation (R82, R84). -/
def Opcode.format : Opcode → Format
  | .directLoad | .immediateLoad | .directStore | .jumpEqual | .jumpLessEqual => .rxy
  | .integerAdd | .floatingPointAdd | .or | .and | .xor => .rst
  | .indirectLoad | .indirectStore | .move => .zrs
  | .ror => .r0n
  | .halt => .n

/-- The bits of a word that a format marks "ignored" (R82, R87; 92_eei_decisions.md D4, assumption log 5). -/
def Format.ignoredBits : Format → Word
  | .rxy => 0x0000#16
  | .rst => 0x0000#16
  | .zrs => 0x0F00#16
  | .r0n => 0x00F0#16
  | .n => 0x0FFF#16

/-- The bits of a word that the decoder does not read: those its format ignores, or, for the unassigned opcode, every
bit but the opcode's (spec/opcode_table.json, "ignored_bits"). -/
def ignoredBits (w : Word) : Word :=
  match opcodeMap (opField w) with
  | some op => op.format.ignoredBits
  | none => 0x0FFF#16

/-! ## Decoding -/

/-- The decoder of R85: it reads the opcode nibble, selects the row of R84 and takes that row's fields, and no other bit. -/
def decode (w : Word) : Instr :=
  match opcodeMap (opField w) with
  | none => .unassignedOpcode0
  | some .directLoad => .directLoad (regOfNibble (aField w)) (xyField w)
  | some .immediateLoad => .immediateLoad (regOfNibble (aField w)) (xyField w)
  | some .directStore => .directStore (regOfNibble (aField w)) (xyField w)
  | some .move => .move (regOfNibble (moveSrcField w)) (regOfNibble (moveDstField w))
  | some .integerAdd => .integerAdd (regOfNibble (aField w)) (regOfNibble (bField w)) (regOfNibble (cField w))
  | some .floatingPointAdd => .floatingPointAdd (regOfNibble (aField w)) (regOfNibble (bField w)) (regOfNibble (cField w))
  | some .or => .or (regOfNibble (aField w)) (regOfNibble (bField w)) (regOfNibble (cField w))
  | some .and => .and (regOfNibble (aField w)) (regOfNibble (bField w)) (regOfNibble (cField w))
  | some .xor => .xor (regOfNibble (aField w)) (regOfNibble (bField w)) (regOfNibble (cField w))
  | some .ror => .ror (regOfNibble (aField w)) (cField w).toNat
  | some .jumpEqual => .jumpEqual (regOfNibble (aField w)) (xyField w)
  | some .halt => .halt
  | some .indirectLoad => .indirectLoad (regOfNibble (bField w)) (regOfNibble (cField w))
  | some .indirectStore => .indirectStore (regOfNibble (bField w)) (regOfNibble (cField w))
  | some .jumpLessEqual => .jumpLessEqual (regOfNibble (aField w)) (xyField w)

/-- Decoding a byte sequence: the first two bytes in address order are the instruction (R7, R56, R80), and the rest is
given back. A sequence of fewer than two bytes is rejected by name. -/
def decodeBytes : List Byte → Except DecodeError (Instr × List Byte)
  | b1 :: b2 :: rest => .ok (decode (wordOfBytes b1 b2), rest)
  | _ => .error .truncated

/-! ## Encoding -/

/-- A word of a one-register-and-byte format (RXY of R82). -/
def wordRXY (op : Opcode) (r : Reg) (xy : Byte) : Word := op.nibble ++ nibbleOfReg r ++ xy

/-- A word of four nibbles. -/
def wordNibbles (op : Nibble) (a b c : Nibble) : Word := op ++ a ++ b ++ c

/-- The words of an instruction, with every ignored nibble 0 as the assembler writes it (R82, R87, R98). -/
def encode : Instr → Word
  | .directLoad r xy => wordRXY .directLoad r xy
  | .immediateLoad r xy => wordRXY .immediateLoad r xy
  | .directStore r xy => wordRXY .directStore r xy
  | .move src dst => wordNibbles (Opcode.nibble .move) 0x0#4 (nibbleOfReg src) (nibbleOfReg dst)
  | .integerAdd d s t => wordNibbles (Opcode.nibble .integerAdd) (nibbleOfReg d) (nibbleOfReg s) (nibbleOfReg t)
  | .floatingPointAdd d s t => wordNibbles (Opcode.nibble .floatingPointAdd) (nibbleOfReg d) (nibbleOfReg s) (nibbleOfReg t)
  | .or d s t => wordNibbles (Opcode.nibble .or) (nibbleOfReg d) (nibbleOfReg s) (nibbleOfReg t)
  | .and d s t => wordNibbles (Opcode.nibble .and) (nibbleOfReg d) (nibbleOfReg s) (nibbleOfReg t)
  | .xor d s t => wordNibbles (Opcode.nibble .xor) (nibbleOfReg d) (nibbleOfReg s) (nibbleOfReg t)
  | .ror r n => wordNibbles (Opcode.nibble .ror) (nibbleOfReg r) 0x0#4 (BitVec.ofNat 4 n)
  | .jumpEqual r xy => wordRXY .jumpEqual r xy
  | .halt => wordNibbles (Opcode.nibble .halt) 0x0#4 0x0#4 0x0#4
  | .indirectLoad b c => wordNibbles (Opcode.nibble .indirectLoad) 0x0#4 (nibbleOfReg b) (nibbleOfReg c)
  | .indirectStore b c => wordNibbles (Opcode.nibble .indirectStore) 0x0#4 (nibbleOfReg b) (nibbleOfReg c)
  | .jumpLessEqual r xy => wordRXY .jumpLessEqual r xy
  | .unassignedOpcode0 => 0x0000#16

/-- The two bytes of an instruction in address order (R56). -/
def encodeBytes (i : Instr) : List Byte := [byte1 (encode i), byte2 (encode i)]

/-- The bytes of a table word in the order the hardware stores them: byte1, which holds bits 15 to 8, at the lower
address (R56). Bits at or above `nbits` are 0. -/
def tableWordBytes (nbits w : Nat) : List Byte :=
  let word : Word := BitVec.ofNat 16 (w % 2 ^ nbits)
  [byte1 word, byte2 word]

/-- The instruction this decoder reads from a word numbered as spec/opcode_table.json numbers it. -/
def decodeTableWord (nbits w : Nat) : Option Instr :=
  match decodeBytes (tableWordBytes nbits w) with
  | .ok (i, _) => some i
  | .error _ => none

end Sys2Proof
end

