-- ==== Sys2Proof/Config.lean ====
section
/-! DEFINITION. What the spec leaves to the implementation (00_scope.md R8), with no repairable behaviour in it.
The parameters of R8 that the spec settles stand where the behaviour they govern stands: `opcodeMap`, `moveSrcField` and
`moveDstField` in Decode.lean, `jmpleSigned` in Machine/Flags.lean. -/

namespace Sys2Proof

/-- `fpAdd` of R182 and R8: OPEN, an uninterpreted total function of the two operands alone (92_eei_decisions.md D8).
It has no body, so nothing in Lean can compute it. Assumption log 1. -/
opaque Config.fpAdd : Byte → Byte → Byte

/-- The byte a memory cell that nothing has written reads as. DESIGN CHOICE (`initMem` is OPEN in R39 and D6), unsafe:
assumption log 2. -/
def Config.unlistedByte : Byte := 0x00#8

/-- The value of every general register at reset. DESIGN CHOICE (`initRegs` is OPEN in R39 and D6), unsafe:
assumption log 3. -/
def Config.initReg : Byte := 0x00#8

end Sys2Proof
end

