-- ==== Sys2Proof/Machine/State.lean ====
section
/-! DEFINITION. The machine's state as plain data (10_state.md, 20_memory.md), the reasons a step can stop, and the
state right after creation (R39). INVENTORY.md, "State", lists every field with its rule and its reset value. -/

namespace Sys2Proof.Machine

/-- The control state (R35). It is no privilege level (R226). -/
inductive Mode where
  /-- Between instructions, or halted. -/
  | idle
  /-- Driving a step sequence: a run, or the inside of a single step. -/
  | running
  deriving DecidableEq, Repr

/-- A change notification (R140, R239). Each carries the value its write has committed, which is what a consumer that
reads the changed item on the event sees (R141). -/
inductive Event where
  | irChanged (w : Word)
  | pcChanged (v : Byte)
  | regChanged (i : Reg) (v : Byte)
  | memChanged (a : Byte) (v : Byte)
  deriving DecidableEq, Repr

/-- What the host does in one transition of the machine (R230, R236, R136; the host table of 60_exceptions.md). Reads
and subscriptions change nothing and are functions of the state (Machine/HostControl.lean). -/
inductive HostAction where
  /-- The host does nothing. -/
  | pass
  /-- "reset program counter to 0" (R231). -/
  | resetPc
  /-- "clear all registers to 0x00" (R232). -/
  | clearRegisters
  /-- Write one register (R233). -/
  | writeRegister (i : Reg) (v : Byte)
  /-- "clear all memory to 0x00" (R234). -/
  | clearMemory
  /-- Write one memory cell (R235). -/
  | writeMemory (a : Byte) (v : Byte)
  /-- The loader: the instruction sequence, two bytes each, written from address 0 (R238). -/
  | load (image : List (Byte × Byte))
  /-- "step one instruction" (R134); `stopArrives` says that a stop request reaches the machine while it steps (R136). -/
  | singleStep (stopArrives : Bool)
  /-- "run continuously until halt or external stop" (R135). -/
  | run
  /-- A stop request that arrives between instructions of a run (R136). -/
  | stop
  /-- A stop request that arrives while an instruction of a run executes (R136, R223). -/
  | stopMidStep
  deriving DecidableEq, Repr

/-- Memory as the cells that hold something else than `Config.unlistedByte`, in one canonical form (`Memory.wf`): the
256 cells of R50, code and data together. -/
abbrev Memory := List Host.Cell

/-- Addresses strictly rising, all above `lo` when `lo` is given. -/
def Memory.risingFrom : Option Nat → Memory → Bool
  | _, [] => true
  | lo, (k, _) :: m => (lo.all (· < k)) && Memory.risingFrom (some k) m

/-- The canonical form: addresses strictly rising, each one of the 256 of R50, no entry equal to what an unlisted
address reads as. -/
def Memory.wf (m : Memory) : Bool :=
  Memory.risingFrom none m && m.all (fun cell => cell.1 < 256 && cell.2 != Config.unlistedByte)

/-- Everything the spec gives the machine, and the model's two channels to the host. -/
structure State where
  /-- `x[0]` to `x[15]` (R20). -/
  regs : Vector Byte 16
  /-- The program counter (R26). -/
  pc : Byte
  /-- The instruction register (R30). -/
  ir : Word
  /-- `M[0]` to `M[255]` (R50). -/
  mem : Memory
  /-- Idle or Running (R35). -/
  mode : Mode
  /-- The host's request to stop a run (R36). -/
  stopRequested : Bool
  /-- Set by Halt, cleared when a step or a run starts (R37). -/
  halted : Bool
  /-- Set by an encoding the source gives no meaning, never cleared (R38). -/
  refused : Bool
  /-- MODEL'S OWN: the notifications of the transition that led here, oldest first (R140, R141). -/
  events : List Event
  /-- MODEL'S OWN: what the host does in each transition to come, one entry a transition; when it is empty the host does
  nothing any more. -/
  hostScript : List HostAction
  deriving DecidableEq, Repr

/-- Faults: none. The machine raises no exception, and no access and no arithmetic fails (R139, R220). -/
inductive Fault where
  deriving DecidableEq, Repr

/-- Why a transition has no next state. -/
inductive Refusal where
  /-- Raised by `exec` for an instruction the model gives no meaning; no arm of this model raises it. Safe. -/
  | notModelled (mnemonic : String)
  /-- Raised when a step or a run is asked of a machine whose `refused` is set: it "takes no further step of any kind"
  (R130, R137). Safe: the spec gives such a step no effect. -/
  | machineRefused
  /-- Raised for a host action the spec does not admit in the present mode and gives "no move" (R236, R136). Safe. -/
  | hostActionNotAdmitted
  /-- Raised by the loader for an image of more than 256 bytes, which "cannot be loaded" (R254). Safe. -/
  | imageTooLong
  deriving DecidableEq, Repr

/-- The machine at its creation (R39, first column; R251: there is no other whole-machine reset). `pc`, `ir`, `mode`
and the three flags are the spec's values (92_eei_decisions.md D5, D6, D10; assumption log 17). Registers and memory are OPEN there; the
values here are DESIGN CHOICE, unsafe (assumption logs 2 and 3). The two host channels are empty (log 6). -/
def State.reset : State where
  regs := Vector.replicate 16 Config.initReg
  pc := 0x00#8
  ir := 0x0000#16
  mem := []
  mode := .idle
  stopRequested := false
  halted := false
  refused := false
  events := []
  hostScript := []

end Sys2Proof.Machine
end

