-- ==== Sys2Proof/Machine/Ops.lean ====
section
/-! DEFINITION. The operations every instruction and every host control is made of: the memory port (20_memory.md R53),
the register file (R20 to R24), the program counter, the instruction register, the notifications of R140 and R141, the
fetch (R131, R132) and the refusal (R137). The machine has no exception to take and no return from one (R220, R224,
R225); what stands here in their place is `State.refuse`. -/

namespace Sys2Proof.Machine

/-! ## Memory as a canonical list of cells -/

/-- The byte at an address; an unlisted address reads as `Config.unlistedByte`. -/
def Memory.get : Memory → Nat → Byte
  | [], _ => Config.unlistedByte
  | (k, v) :: m, a => if k = a then v else Memory.get m a

/-- The memory without an entry for `a`. -/
def Memory.erase : Memory → Nat → Memory
  | [], _ => []
  | (k, v) :: m, a => if k = a then Memory.erase m a else (k, v) :: Memory.erase m a

/-- The memory with an entry for `a` before the first higher address. -/
def Memory.insert : Memory → Nat → Byte → Memory
  | [], a, v => [(a, v)]
  | (k, w) :: m, a, v => if a < k then (a, v) :: (k, w) :: m else (k, w) :: Memory.insert m a v

/-- The memory with `v` at `a`, in canonical form: writing what an unlisted address reads as removes the entry. -/
def Memory.set (m : Memory) (a : Nat) (v : Byte) : Memory :=
  if v = Config.unlistedByte then Memory.erase m a else Memory.insert (Memory.erase m a) a v

/-! ## Notifications (R140, R141) -/

/-- Emit an event, after the write it reports. -/
def State.emit (s : State) (e : Event) : State := { s with events := s.events ++ [e] }

/-! ## The memory port (R53) -/

/-- `MemRead(a, 1)`: the byte in cell `a`; reading changes nothing (R60). -/
def State.readMem (s : State) (a : Byte) : Byte := Memory.get s.mem a.toNat

/-- `MemWrite(a, 1, v)`: sets cell `a` and nothing else, and reports it (R53, R60, R140). -/
def State.writeMem (s : State) (a : Byte) (v : Byte) : State :=
  ({ s with mem := Memory.set s.mem a.toNat v }).emit (.memChanged a v)

/-! ## Registers -/

/-- `x[i]` (R11, R24). -/
def State.readReg (s : State) (i : Reg) : Byte := s.regs.get i

/-- `x[i] <- v`: no register is hardwired (R21), and every write is reported, also of the value already held (R140;
92_eei_decisions.md D11). -/
def State.writeReg (s : State) (i : Reg) (v : Byte) : State :=
  ({ s with regs := s.regs.set i.val v i.isLt }).emit (.regChanged i v)

/-- `pc <- v` (R11, R29). -/
def State.writePc (s : State) (v : Byte) : State := ({ s with pc := v }).emit (.pcChanged v)

/-- `ir <- w` (R11, R31). -/
def State.writeIr (s : State) (w : Word) : State := ({ s with ir := w }).emit (.irChanged w)

/-! ## Ends of a step sequence -/

/-- `halt` of R11 and R206. -/
def State.halt (s : State) : State := { s with halted := true, mode := .idle }

/-- `refuse(UndefinedOpcode)` of R11 and R137: the mark is set and the machine is Idle; it saves no state and transfers
no control (R221). -/
def State.refuse (s : State) : State := { s with refused := true, mode := .idle }

/-! ## Fetch -/

/-- The two bytes at `pc` and `pc + 1`, the address wrapping modulo 256 (R55, R131), as one word (R56). -/
def State.fetchWord (s : State) : Word := wordOfBytes (s.readMem s.pc) (s.readMem (s.pc + 1#8))

/-- The fetch and the increment that begin every step (R131, R132): `ir` gets the word, then `pc` moves on by 2. -/
def fetch (s : State) : State :=
  let fetched := s.writeIr s.fetchWord
  fetched.writePc (s.pc + 2#8)

end Sys2Proof.Machine
end

