-- ==== Sys2Proof/Machine/Operands.lean ====
section
/-! DEFINITION. The operand forms of R83 and 41_transfer.md: register, immediate, direct address, address in a register,
rotate count. Each is used as it stands, with no extension, scaling or shift. -/

namespace Sys2Proof.Machine

/-- The value of a register operand (R83). -/
def regOperand (s : State) (r : Reg) : Byte := s.readReg r

/-- The immediate of ImmediateLoad: the byte `xy` itself (R83, R160). -/
def immOperand (xy : Byte) : Byte := xy

/-- The address of DirectLoad and DirectStore: the byte `xy` itself (R55, R83). -/
def directAddr (xy : Byte) : Byte := xy

/-- The address of IndirectLoad and IndirectStore: the byte in register `c` (R55, R164, R168). -/
def indirectAddr (s : State) (c : Reg) : Byte := regOperand s c

/-- The target of a branch: the absolute byte `xy` (R205). -/
def branchTarget (xy : Byte) : Byte := xy

/-- The effective rotate count: amounts of 8 and more reduce modulo 8 (R190). -/
def rotateAmount (n : Nat) : Nat := n % 8

/-- The reference of the conditional branches: R0 (R22). -/
def branchReference (s : State) : Byte := regOperand s 0

end Sys2Proof.Machine
end

