-- ==== Sys2Proof/Machine/Alu.lean ====
section
/-! DEFINITION. The ALU instructions (42_alu.md): each writes exactly one register, after both its sources are read. -/

namespace Sys2Proof.Machine

/-- Unsigned 8-bit addition with wraparound and no carry kept (R178, R180). -/
def addByte (p q : Byte) : Byte := p + q

/-- `fpAdd` of R182: OPEN, uninterpreted (92_eei_decisions.md D8, assumption log 1). -/
def floatAddByte (p q : Byte) : Byte := Config.fpAdd p q

/-- `rotr8(v, n mod 8)` of R190: `((v >> k) OR (v << (8 - k))) mod 256`. For `k = 0` the left shift is by the whole
width and gives 0, so the result is `v`. -/
def rotr8 (v : Byte) (n : Nat) : Byte := (v >>> rotateAmount n) ||| (v <<< (8 - rotateAmount n))

/-- The shape of the three-register operations (RST of R82): `x[d] <- f(x[s], x[t])`. -/
def aluRST (f : Byte → Byte → Byte) (d sr tr : Reg) (s : State) : State :=
  s.writeReg d (f (regOperand s sr) (regOperand s tr))

/-- `x[a] <- (x[b] + x[c]) mod 256` (R180). -/
def execIntegerAdd (d sr tr : Reg) (s : State) : Host.Outcome State Fault Refusal :=
  .next (aluRST addByte d sr tr s)

/-- `x[a] <- fpAdd(x[b], x[c])` (R182). -/
def execFloatingPointAdd (d sr tr : Reg) (s : State) : Host.Outcome State Fault Refusal :=
  .next (aluRST floatAddByte d sr tr s)

/-- `x[a] <- x[b] OR x[c]` (R184). -/
def execOr (d sr tr : Reg) (s : State) : Host.Outcome State Fault Refusal :=
  .next (aluRST (fun p q => p ||| q) d sr tr s)

/-- `x[a] <- x[b] AND x[c]` (R186). -/
def execAnd (d sr tr : Reg) (s : State) : Host.Outcome State Fault Refusal :=
  .next (aluRST (fun p q => p &&& q) d sr tr s)

/-- `x[a] <- x[b] XOR x[c]` (R188). -/
def execXor (d sr tr : Reg) (s : State) : Host.Outcome State Fault Refusal :=
  .next (aluRST (fun p q => p ^^^ q) d sr tr s)

/-- `x[a] <- rotr8(x[a], n mod 8)`; the register is written also when its value does not change (R190). -/
def execRor (r : Reg) (n : Nat) (s : State) : Host.Outcome State Fault Refusal :=
  .next (s.writeReg r (rotr8 (regOperand s r) n))

end Sys2Proof.Machine
end

