-- ==== Sys2Proof/Machine/Flags.lean ====
section
/-! DEFINITION. The machine has no flags and no condition codes (10_state.md R32): no instruction computes one. What
stands here is what its conditional branches compute instead, straight from two bytes (43_control.md R200, R202). -/

namespace Sys2Proof.Machine

/-- `jmpleSigned` of R8 and R202: the compare is unsigned (92_eei_decisions.md D9, assumption log 7). -/
def jmpleSigned : Bool := false

/-- The condition of JumpEqual: equality of the 8-bit values (R200). -/
def eqCondition (p q : Byte) : Bool := p = q

/-- `le(p, q)` of R202. -/
def leCondition (p q : Byte) : Bool :=
  if jmpleSigned then decide (p.toInt ≤ q.toInt) else decide (p.toNat ≤ q.toNat)

end Sys2Proof.Machine
end

