-- ==== Sys2Proof/Machine/Control.lean ====
section
/-! DEFINITION. Control transfer, Halt, and the word the source gives no meaning (43_control.md, 40_cycle.md R137). -/

namespace Sys2Proof.Machine

/-- A branch: `pc` is overwritten when the condition holds and keeps its incremented value otherwise (R133, R200). -/
def branchIf (taken : Bool) (xy : Byte) (s : State) : State :=
  if taken then s.writePc (branchTarget xy) else s

/-- `if x[a] = x[0] then pc <- xy` (R200, R204). -/
def execJumpEqual (r : Reg) (xy : Byte) (s : State) : Host.Outcome State Fault Refusal :=
  .next (branchIf (eqCondition (regOperand s r) (branchReference s)) xy s)

/-- `if le(x[a], x[0]) then pc <- xy` (R202). -/
def execJumpLessEqual (r : Reg) (xy : Byte) (s : State) : Host.Outcome State Fault Refusal :=
  .next (branchIf (leCondition (regOperand s r) (branchReference s)) xy s)

/-- `halted <- true; mode <- Idle` (R206). -/
def execHalt (s : State) : Host.Outcome State Fault Refusal := .next s.halt

/-- The execute part of an `op = 0x0` word: no register and no memory changes, `refused <- true`, `mode <- Idle`
(R86, R137; 92_eei_decisions.md D5, assumption log 9). -/
def execUnassignedOpcode0 (s : State) : Host.Outcome State Fault Refusal := .next s.refuse

end Sys2Proof.Machine
end

