-- ==== Sys2Proof/Machine/Transfer.lean ====
section
/-! DEFINITION. The data transfer instructions (41_transfer.md): what each does after the fetch and the increment. -/

namespace Sys2Proof.Machine

/-- `x[a] <- MemRead(xy, 1)` (R162). -/
def execDirectLoad (r : Reg) (xy : Byte) (s : State) : Host.Outcome State Fault Refusal :=
  .next (s.writeReg r (s.readMem (directAddr xy)))

/-- `x[a] <- xy` (R160). -/
def execImmediateLoad (r : Reg) (xy : Byte) (s : State) : Host.Outcome State Fault Refusal :=
  .next (s.writeReg r (immOperand xy))

/-- `MemWrite(xy, 1, x[a])` (R166). -/
def execDirectStore (r : Reg) (xy : Byte) (s : State) : Host.Outcome State Fault Refusal :=
  .next (s.writeMem (directAddr xy) (regOperand s r))

/-- `x[c] <- x[b]` (R170; the direction is 92_eei_decisions.md D7, assumption log 8). -/
def execMove (src dst : Reg) (s : State) : Host.Outcome State Fault Refusal :=
  .next (s.writeReg dst (regOperand s src))

/-- `addr <- x[c]; x[b] <- MemRead(addr, 1)`: the address is read before the write (R164). -/
def execIndirectLoad (b c : Reg) (s : State) : Host.Outcome State Fault Refusal :=
  .next (s.writeReg b (s.readMem (indirectAddr s c)))

/-- `MemWrite(x[c], 1, x[b])` (R168). -/
def execIndirectStore (b c : Reg) (s : State) : Host.Outcome State Fault Refusal :=
  .next (s.writeMem (indirectAddr s c) (regOperand s b))

end Sys2Proof.Machine
end

