-- ==== Sys2Proof/Machine/Dispatch.lean ====
section
/-! DEFINITION. One arm per instruction: what it does after the fetch and the increment (40_cycle.md R133). -/

namespace Sys2Proof.Machine

/-- The execute part of a step (R133): one call of the instruction's meaning. -/
def exec (i : Instr) (s : State) : Host.Outcome State Fault Refusal :=
  match i with
  | .directLoad r xy => Sys2Proof.Machine.execDirectLoad r xy s
  | .immediateLoad r xy => Sys2Proof.Machine.execImmediateLoad r xy s
  | .directStore r xy => Sys2Proof.Machine.execDirectStore r xy s
  | .move src dst => Sys2Proof.Machine.execMove src dst s
  | .integerAdd d sr tr => Sys2Proof.Machine.execIntegerAdd d sr tr s
  | .floatingPointAdd d sr tr => Sys2Proof.Machine.execFloatingPointAdd d sr tr s
  | .or d sr tr => Sys2Proof.Machine.execOr d sr tr s
  | .and d sr tr => Sys2Proof.Machine.execAnd d sr tr s
  | .xor d sr tr => Sys2Proof.Machine.execXor d sr tr s
  | .ror r n => Sys2Proof.Machine.execRor r n s
  | .jumpEqual r xy => Sys2Proof.Machine.execJumpEqual r xy s
  | .halt => Sys2Proof.Machine.execHalt s
  | .indirectLoad b c => Sys2Proof.Machine.execIndirectLoad b c s
  | .indirectStore b c => Sys2Proof.Machine.execIndirectStore b c s
  | .jumpLessEqual r xy => Sys2Proof.Machine.execJumpLessEqual r xy s
  | .unassignedOpcode0 => Sys2Proof.Machine.execUnassignedOpcode0 s

end Sys2Proof.Machine
end

