-- ==== Sys2Proof/Machine/HostControl.lean ====
section
/-! DEFINITION. The host control surface (60_exceptions.md R230 to R239): the controls that write state, the host's
reads, and what a subscriber is given. Which control is admitted when, and the two that execute instructions, stand in
Machine/Cycle.lean. -/

namespace Sys2Proof.Machine

/-- "reset program counter to 0" (R231). -/
def hostResetPc (s : State) : State := s.writePc 0x00#8

/-- Write register (R233). -/
def hostWriteRegister (i : Reg) (v : Byte) (s : State) : State := s.writeReg i v

/-- Write memory cell (R235). -/
def hostWriteMemory (a v : Byte) (s : State) : State := s.writeMem a v

/-- "clear all registers to 0x00": every `x[i] <- 0x00`, with one event each, in the order of the indices (R232, R140;
the order is DEDUCED, assumption log 10). -/
def hostClearRegisters (s : State) : State :=
  { s with
    regs := Vector.replicate 16 0x00#8,
    events := s.events ++ (List.finRange 16).map (fun i => .regChanged i 0x00#8) }

/-- Memory with `v` in each of the 256 cells, in canonical form. -/
def Memory.fill (v : Byte) : Memory :=
  if v = Config.unlistedByte then [] else (List.range 256).map (fun a => (a, v))

/-- "clear all memory to 0x00": every `M[a] <- 0x00`, with one event each, in the order of the addresses (R234, R140;
assumption log 10). -/
def hostClearMemory (s : State) : State :=
  { s with
    mem := Memory.fill 0x00#8,
    events := s.events ++ (List.range 256).map (fun a => .memChanged (BitVec.ofNat 8 a) 0x00#8) }

/-- The bytes of an instruction sequence in address order. -/
def imageBytes : List (Byte × Byte) → List Byte
  | [] => []
  | (b1, b2) :: image => b1 :: b2 :: imageBytes image

/-- Bytes written to consecutive cells from `a` on. -/
def writeBytesFrom : Nat → List Byte → State → State
  | _, [], s => s
  | a, v :: bytes, s => writeBytesFrom (a + 1) bytes (s.writeMem (BitVec.ofNat 8 a) v)

/-- Whether an image fits the 256 cells (R254). -/
def imageFits (image : List (Byte × Byte)) : Bool := (imageBytes image).length ≤ 256

/-- The loader: instruction `k` goes to `M[2k]` and `M[2k+1]`; cells beyond the sequence are not written (R238). -/
def hostLoad (image : List (Byte × Byte)) (s : State) : State := writeBytesFrom 0 (imageBytes image) s

/-- A stop request reaches the machine (R136). -/
def requestStop (s : State) : State := { s with stopRequested := true }

/-- The start of a run (R135). `pc` is kept. -/
def startRun (s : State) : State := { s with mode := .running, halted := false, stopRequested := false }

/-- The return of the run loop to Idle on a stop request (R135, R136). -/
def endRun (s : State) : State := { s with mode := .idle }

/-- The start of a single step (R134). -/
def beginSingleStep (s : State) : State := { s with mode := .running, halted := false }

/-- The end of a single step: Idle, whether or not the instruction was Halt (R134). A stop request that arrived
meanwhile stays recorded, since only a run clears it (R39, R136). -/
def endSingleStep (stopArrives : Bool) (s : State) : State :=
  { s with mode := .idle, stopRequested := s.stopRequested || stopArrives }

/-- Read register: the host is given `x[i]` (R233); taken at a step boundary (R237). -/
def hostReadRegister (s : State) (i : Reg) : Byte := s.readReg i

/-- Read memory cell: the host is given `M[a]` (R235, R237). -/
def hostReadMemory (s : State) (a : Byte) : Byte := s.readMem a

/-- What the host can subscribe to: `PcChanged` and `IrChanged` by name (R230), register and memory mutations because
the source calls them observable too (R239). -/
inductive Subscription where
  | pc | ir | registers | memory
  deriving DecidableEq, Repr

/-- The subscription an event belongs to (R239). -/
def Event.subscription : Event → Subscription
  | .irChanged _ => .ir
  | .pcChanged _ => .pc
  | .regChanged _ _ => .registers
  | .memChanged _ _ => .memory

/-- The notifications of the last transition that a host with these subscriptions is given, in order: a subset of what
the model emits (R140, R239; 90_conflicts.md C7). -/
def delivered (subs : List Subscription) (s : State) : List Event :=
  s.events.filter (fun e => subs.contains e.subscription)

end Sys2Proof.Machine
end

