-- ==== Sys2Proof/Machine/Cycle.lean ====
section
/-! DEFINITION. One transition of the machine with its host: the step of 40_cycle.md R130 to R133, the single step and
the run loop that drive it (R134 to R137), and which host action is admitted when (60_exceptions.md R236). -/

namespace Sys2Proof.Machine

/-- Continue after a next state; a fault or a refusal is passed on. -/
def andThen (o : Host.Outcome State Fault Refusal) (f : State → State) : Host.Outcome State Fault Refusal :=
  match o with
  | .next s => .next (f s)
  | .fault r => .fault r
  | .refused r => .refused r

/-- One step (R130 to R133): fetch, increment, decode `ir`, execute. A refused machine takes none (R130, R137). -/
def cycle (s : State) : Host.Outcome State Fault Refusal :=
  if s.refused then .refused .machineRefused else exec (decode (fetch s).ir) (fetch s)

/-- The host control "step one instruction" (R134). -/
def singleStep (stopArrives : Bool) (s : State) : Host.Outcome State Fault Refusal :=
  andThen (cycle (beginSingleStep s)) (endSingleStep stopArrives)

/-- The host control "run": it starts a run, whose steps are the transitions to come (R135). -/
def beginRun (s : State) : Host.Outcome State Fault Refusal :=
  if s.refused then .refused .machineRefused else .next (startRun s)

/-- One pass of the run loop (R135): a requested stop ends the run, anything else is a step. Halt and the refusal have
left the mode Idle, so the loop has no further pass after them. -/
def runPass (s : State) : Host.Outcome State Fault Refusal :=
  if s.stopRequested then .next (endRun s) else cycle s

/-- The loader, which turns away an image that does not fit (R238, R254). -/
def loadImage (image : List (Byte × Byte)) (s : State) : Host.Outcome State Fault Refusal :=
  if imageFits image then .next (hostLoad image s) else .refused .imageTooLong

/-- A transition while Idle: what the host does, and nothing else (R236, R244). A stop request is admitted only while
Running (R136). -/
def whileIdle (act : HostAction) (s : State) : Host.Outcome State Fault Refusal :=
  match act with
  | .pass => .next s
  | .resetPc => .next (hostResetPc s)
  | .clearRegisters => .next (hostClearRegisters s)
  | .writeRegister i v => .next (hostWriteRegister i v s)
  | .clearMemory => .next (hostClearMemory s)
  | .writeMemory a v => .next (hostWriteMemory a v s)
  | .load image => loadImage image s
  | .singleStep stopArrives => singleStep stopArrives s
  | .run => beginRun s
  | .stop => .refused .hostActionNotAdmitted
  | .stopMidStep => .refused .hostActionNotAdmitted

/-- A transition while Running: one pass of the run loop, with the stop request the host may make at any time (R136); no
other host action has a move then (R236; 92_eei_decisions.md D12, assumption log 11). A request that arrives between
instructions is seen at once; one that arrives while an instruction executes lets it complete (assumption log 22). -/
def whileRunning (act : HostAction) (s : State) : Host.Outcome State Fault Refusal :=
  match act with
  | .pass => runPass s
  | .stop => runPass (requestStop s)
  | .stopMidStep => andThen (runPass s) requestStop
  | .resetPc => .refused .hostActionNotAdmitted
  | .clearRegisters => .refused .hostActionNotAdmitted
  | .writeRegister _ _ => .refused .hostActionNotAdmitted
  | .clearMemory => .refused .hostActionNotAdmitted
  | .writeMemory _ _ => .refused .hostActionNotAdmitted
  | .load _ => .refused .hostActionNotAdmitted
  | .singleStep _ => .refused .hostActionNotAdmitted
  | .run => .refused .hostActionNotAdmitted

/-- What the host does in the next transition; nothing once its script is at its end. -/
def nextHostAction (s : State) : HostAction := s.hostScript.headD .pass

/-- The start of a transition: the notifications of the last one are delivered and the host's next action is taken. -/
def beginTransition (s : State) : State := { s with events := [], hostScript := s.hostScript.tail }

/-- One transition of the machine with its host. -/
def transition (s : State) : Host.Outcome State Fault Refusal :=
  match s.mode with
  | .idle => whileIdle (nextHostAction s) (beginTransition s)
  | .running => whileRunning (nextHostAction s) (beginTransition s)

/-- The bytes of a list stored from an address on, without notifications: how a program's bytes come to be there is
not the machine's doing (assumption log 12). -/
def placeBytes : Byte → List Byte → State → State
  | _, [], s => s
  | a, v :: bytes, s => placeBytes (a + 1#8) bytes { s with mem := Memory.set s.mem a.toNat v }

/-- `s` with an instruction where the next fetch reads it, in a run that has just started with a host that does nothing
(assumption log 12): the next transition fetches and runs exactly that instruction. -/
def placeFetchWord (s : State) (nbits w : Nat) : State :=
  startRun { placeBytes s.pc (tableWordBytes nbits w) s with refused := false, hostScript := [] }

end Sys2Proof.Machine
end

