-- ==== Sys2Proof/Machine/Step.lean ====
section
/-! DEFINITION. The machine's step: one transition of the machine with its host (Machine/Cycle.lean). -/

namespace Sys2Proof.Machine

/-- One transition. While Running it is one pass of the run loop of R135, which executes one instruction unless a stop
was requested; while Idle it is what the host does next (R230, R236, R244). -/
def step (s : State) : Host.Outcome State Fault Refusal := transition s

/-- `s` with the table word `w` where `step` fetches its next instruction, in a run with a host that does nothing. -/
def State.withFetchWord (s : State) (nbits w : Nat) : State := placeFetchWord s nbits w

end Sys2Proof.Machine
end

