-- ==== Sys2Proof/Machine/Assembler.lean ====
section
/-! DEFINITION. The assembler's observable contract (30_encoding.md section 6, R90 to R106): from source text to the
instruction sequence the loader copies into memory, or to the first error. It is software outside the CORE and no part of
the machine's step. Where the contract leaves a text's treatment open, assumption logs 13 to 15 and 23 to 25 say what is
taken. -/

namespace Sys2Proof.Assembler

/-- The assembly errors of R104, and the buffer's end (R103; 92_eei_decisions.md D15). -/
inductive AsmError where
  | unrecognizedMnemonic
  | invalidLabelSyntax
  | operandSyntax
  | outOfRangeImmediate
  | undefinedSymbol
  | bufferOverflow
  deriving DecidableEq, Repr

/-- The outcome of assembling something. -/
inductive Result (α : Type) where
  | ok (a : α)
  | fails (e : AsmError)
  deriving DecidableEq, Repr

/-- Continue after a success; the first error stops everything (R104). Within one statement the operands are looked at from
left to right (log 25). -/
def Result.andThen {α β : Type} : Result α → (α → Result β) → Result β
  | .ok a, f => f a
  | .fails e, _ => .fails e

/-- A token, or any other stretch of source text. -/
abbrev Text := List Char

/-- One byte of the buffer: a byte, or a label whose value is not known yet (R96, R103). -/
inductive Slot where
  | byte (b : Byte)
  | deferred (label : Text)
  deriving DecidableEq, Repr

/-- The symbol table, newest definition first, so that the last one wins (R97). -/
abbrev Symbols := List (Text × Nat)

/-- The assembler between two lines: the symbol table, the write cursor and the buffer, newest write first (R97, R102). -/
structure AsmState where
  symbols : Symbols
  cursor : Nat
  buffer : List (Nat × Slot)
  deriving DecidableEq, Repr

/-- Each assembly starts from an empty symbol table and an empty buffer with the cursor at 0 (R105). -/
def AsmState.start : AsmState := { symbols := [], cursor := 0, buffer := [] }

/-- The mnemonics of R98. -/
inductive Mnemonic where
  | load | store | move | addi | addf | or | and | xor | ror | jmp | jmpeq | jmple | halt | db | org
  deriving DecidableEq, Repr

/-! ## Text -/

/-- White space inside a line (log 13). -/
def isSpace (c : Char) : Bool := c == ' ' || c == '\t' || c == '\r'

/-- The pieces of a text between the separators; always at least one. -/
def splitOn (sep : Char) : Text → List Text
  | [] => [[]]
  | c :: cs =>
    match splitOn sep cs with
    | [] => [[c]]
    | w :: ws => if c == sep then [] :: w :: ws else (c :: w) :: ws

/-- A text without white space at its two ends. -/
def trim (cs : Text) : Text := ((cs.dropWhile isSpace).reverse.dropWhile isSpace).reverse

/-- A line without its comment, which runs from the first `;` (R90). -/
def stripComment (line : Text) : Text := line.takeWhile (· != ';')

/-- The characters of a label: alphanumeric, `#`, `_` or `~` (R91; ASCII, log 13). -/
def isLabelChar (c : Char) : Bool := c.isAlphanum || c == '#' || c == '_' || c == '~'

/-- A valid label, its colon already taken off (R91). -/
def isLabel (name : Text) : Bool :=
  !name.isEmpty && name.all isLabelChar && !(name.head?.any Char.isDigit)

/-- The label of a line, if it has one, and the rest of the line (R91). -/
def splitLabel (line : Text) : Result (Option Text × Text) :=
  if line.contains ':' then
    let name := line.takeWhile (· != ':')
    if isLabel name then .ok (some name, line.drop (name.length + 1)) else .fails .invalidLabelSyntax
  else .ok (none, line)

/-- The mnemonic token: the first stretch without white space (R92). -/
def mnemonicToken (line : Text) : Text := (line.dropWhile isSpace).takeWhile (fun c => !isSpace c)

/-- The operand tokens: what follows the mnemonic, split on commas and trimmed (R92). -/
def operandTokens (line : Text) : List Text :=
  let rest := trim ((line.dropWhile isSpace).dropWhile (fun c => !isSpace c))
  if rest.isEmpty then [] else (splitOn ',' rest).map trim

/-- The mnemonic a token names, matched case-insensitively (R92, R98). -/
def mnemonicOf (token : Text) : Option Mnemonic :=
  match token.map Char.toLower with
  | ['l', 'o', 'a', 'd'] => some .load
  | ['s', 't', 'o', 'r', 'e'] => some .store
  | ['m', 'o', 'v', 'e'] => some .move
  | ['a', 'd', 'd', 'i'] => some .addi
  | ['a', 'd', 'd', 'f'] => some .addf
  | ['o', 'r'] => some .or
  | ['a', 'n', 'd'] => some .and
  | ['x', 'o', 'r'] => some .xor
  | ['r', 'o', 'r'] => some .ror
  | ['j', 'm', 'p'] => some .jmp
  | ['j', 'm', 'p', 'e', 'q'] => some .jmpeq
  | ['j', 'm', 'p', 'l', 'e'] => some .jmple
  | ['h', 'a', 'l', 't'] => some .halt
  | ['d', 'b'] => some .db
  | ['o', 'r', 'g'] => some .org
  | _ => none

/-! ## Literals (R93, R94) -/

/-- The value of a digit up to base 16, in either case. -/
def digitValue (c : Char) : Option Nat :=
  if c.isDigit then some (c.toNat - '0'.toNat)
  else if 'a'.toNat ≤ c.toNat ∧ c.toNat ≤ 'f'.toNat then some (c.toNat - 'a'.toNat + 10)
  else if 'A'.toNat ≤ c.toNat ∧ c.toNat ≤ 'F'.toNat then some (c.toNat - 'A'.toNat + 10)
  else none

/-- The value of a digit in a base. -/
def digitIn (base : Nat) (c : Char) : Option Nat := (digitValue c).filter (· < base)

/-- The number that digits spell, on top of those already read. -/
def digitsOnto (base : Nat) : Nat → Text → Option Nat
  | acc, [] => some acc
  | acc, c :: cs => (digitIn base c).bind (fun d => digitsOnto base (acc * base + d) cs)

/-- An unsigned number of one digit or more. -/
def unsigned (base : Nat) (cs : Text) : Option Nat := if cs.isEmpty then none else digitsOnto base 0 cs

/-- A text without its last character, if that is `c`. -/
def withoutSuffix (c : Char) (cs : Text) : Option Text := if cs.getLast? == some c then some cs.dropLast else none

/-- Decimal: an optional sign, digits, an optional trailing `d` (R93). -/
def decimal (cs : Text) : Option Int :=
  match (withoutSuffix 'd' cs).getD cs with
  | '-' :: ds => (unsigned 10 ds).map (fun n => -(n : Int))
  | '+' :: ds => (unsigned 10 ds).map (fun n => (n : Int))
  | ds => (unsigned 10 ds).map (fun n => (n : Int))

/-- Binary: digits and a trailing `b` (R93). -/
def binary (cs : Text) : Option Int := ((withoutSuffix 'b' cs).bind (unsigned 2)).map (fun n => (n : Int))

/-- Hexadecimal after the prefix `0x` or `$` (R93). -/
def hexPrefixed : Text → Option Nat
  | '0' :: 'x' :: ds => unsigned 16 ds
  | '$' :: ds => unsigned 16 ds
  | _ => none

/-- Hexadecimal with the suffix `h`, unless the text begins with a letter (R93). -/
def hexSuffixed (cs : Text) : Option Nat :=
  if cs.head?.any Char.isAlpha then none else (withoutSuffix 'h' cs).bind (unsigned 16)

/-- A numeric literal: the first form that parses wins, in the order decimal, binary, hexadecimal (R93). -/
def numeric (cs : Text) : Option Int :=
  (decimal cs).orElse fun _ => (binary cs).orElse fun _ =>
    ((hexPrefixed cs).orElse fun _ => hexSuffixed cs).map (fun n => (n : Int))

/-- The byte of a literal's value: two's complement when negative, an operand syntax error outside -128 to 255
(R93; 92_eei_decisions.md D16). -/
def literalByte (v : Int) : Result Byte :=
  if -128 ≤ v ∧ v ≤ 255 then .ok (BitVec.ofInt 8 v) else .fails .operandSyntax

/-- A token that must be a numeric literal. -/
def numericToken (tok : Text) : Result Byte :=
  match numeric tok with
  | some v => literalByte v
  | none => .fails .operandSyntax

/-- The characters between matching quotes, `"` or `'` (R94). -/
def quoted : Text → Option Text
  | q :: cs =>
    if (q == Char.ofNat 34 || q == Char.ofNat 39) && cs.getLast? == some q then some cs.dropLast else none
  | [] => none

/-- The bytes of a string literal, one a character; a code above 255 is an operand syntax error (R94). -/
def stringBytes (cs : Text) : Result (List Byte) :=
  if cs.all (fun c => c.toNat ≤ 255) then .ok (cs.map (fun c => BitVec.ofNat 8 c.toNat)) else .fails .operandSyntax

/-! ## Registers and addresses (R95, R96) -/

/-- A register token without brackets: `R` and one hexadecimal digit, both in either case (R95;
92_eei_decisions.md D17). -/
def register : Text → Option Reg
  | [r, h] => if r == 'R' || r == 'r' then (digitValue h).map (fun n => Fin.ofNat 16 n) else none
  | _ => none

/-- What stands between a leading `[` and a trailing `]` (R95). It is not trimmed: whether `[ R1 ]` or `[ 5 ]` is accepted
the spec leaves open (91_not_in_source.md), and here what is inside is then neither a register nor a literal, so it is
taken as a label that no line can define and ends as an undefined symbol (DESIGN CHOICE, assumption log 23). -/
def bracketed : Text → Option Text
  | '[' :: cs => withoutSuffix ']' cs
  | _ => none

/-- A register token where brackets are forbidden. -/
def registerToken (tok : Text) : Result Reg :=
  match register tok with
  | some r => .ok r
  | none => .fails .operandSyntax

/-- The first definition of a label in the table. -/
def lookup (name : Text) : Symbols → Option Nat
  | [] => none
  | (n, off) :: syms => if n = name then some off else lookup name syms

/-- The byte of a label's offset. -/
def offsetByte (off : Nat) : Result Byte :=
  if off < 256 then .ok (BitVec.ofNat 8 off) else .fails .bufferOverflow

/-- An address token without brackets: a numeric literal, or else a label, resolved at once if it is defined and deferred
if not; never a register token (R96). An empty token or one with a stray bracket is no label (log 14); any other is one,
also where its characters are no label's, white space among them (log 23). -/
def addressToken (syms : Symbols) (tok : Text) : Result Slot :=
  match numeric tok with
  | some v => (literalByte v).andThen fun b => .ok (.byte b)
  | none =>
    if (register tok).isSome || tok.isEmpty || tok.contains '[' || tok.contains ']' then .fails .operandSyntax
    else match lookup tok syms with
      | some off => (offsetByte off).andThen fun b => .ok (.byte b)
      | none => .ok (.deferred tok)

/-! ## Statements (R98 to R102, R106) -/

/-- What a statement does to the buffer: append bytes, or move the cursor (R102). -/
inductive Effect where
  | emit (slots : List Slot)
  | setCursor (n : Nat)
  deriving DecidableEq, Repr

/-- The bytes of an instruction whose operands are all known. -/
def emitInstr (i : Instr) : Effect := .emit ((encodeBytes i).map .byte)

/-- The bytes of an RXY instruction: byte1, then the operand byte, which may be deferred. -/
def emitRXY (i : Byte → Instr) (operand : Slot) : Effect := .emit [.byte (byte1 (encode (i 0x00#8))), operand]

/-- An operation over three registers: `5r1 r2r3` and its like (R98). -/
def threeRegisters (i : Reg → Reg → Reg → Instr) : List Text → Result Effect
  | [t1, t2, t3] =>
    (registerToken t1).andThen fun r1 => (registerToken t2).andThen fun r2 => (registerToken t3).andThen fun r3 =>
      .ok (emitInstr (i r1 r2 r3))
  | _ => .fails .operandSyntax

/-- A jump on a register: `Br A`, `Fr A` (R98). -/
def registerAndAddress (syms : Symbols) (i : Reg → Byte → Instr) : List Text → Result Effect
  | [t1, t2] =>
    (registerToken t1).andThen fun r => (addressToken syms t2).andThen fun a => .ok (emitRXY (i r) a)
  | _ => .fails .operandSyntax

/-- `load` (R98, R106): a bracketed register is indirect, another bracketed token direct, an unbracketed one immediate. -/
def encodeLoad (syms : Symbols) : List Text → Result Effect
  | [t1, t2] =>
    (registerToken t1).andThen fun r =>
      match bracketed t2 with
      | some inner =>
        match register inner with
        | some c => .ok (emitInstr (.indirectLoad r c))
        | none => (addressToken syms inner).andThen fun a => .ok (emitRXY (.directLoad r) a)
      | none => (addressToken syms t2).andThen fun a => .ok (emitRXY (.immediateLoad r) a)
  | _ => .fails .operandSyntax

/-- `store` (R98, R106): a bracketed register is indirect, another bracketed token direct, anything else an error. -/
def encodeStore (syms : Symbols) : List Text → Result Effect
  | [t1, t2] =>
    (registerToken t1).andThen fun r =>
      match bracketed t2 with
      | some inner =>
        match register inner with
        | some c => .ok (emitInstr (.indirectStore r c))
        | none => (addressToken syms inner).andThen fun a => .ok (emitRXY (.directStore r) a)
      | none => .fails .operandSyntax
  | _ => .fails .operandSyntax

/-- `move Rr1, Rr2`: `40 r1r2` (R98, R99). -/
def encodeMove : List Text → Result Effect
  | [t1, t2] =>
    (registerToken t1).andThen fun r1 => (registerToken t2).andThen fun r2 => .ok (emitInstr (.move r1 r2))
  | _ => .fails .operandSyntax

/-- `ror Rr, n`: the count is a numeric literal, and one of 16 or more is out of range (R98, R100). -/
def encodeRor : List Text → Result Effect
  | [t1, t2] =>
    (registerToken t1).andThen fun r => (numericToken t2).andThen fun n =>
      if n.toNat < 16 then .ok (emitInstr (.ror r n.toNat)) else .fails .outOfRangeImmediate
  | _ => .fails .operandSyntax

/-- `jmp A`: JumpEqual with register field 0 (R98, R101). -/
def encodeJmp (syms : Symbols) : List Text → Result Effect
  | [t] => (addressToken syms t).andThen fun a => .ok (emitRXY (.jumpEqual 0) a)
  | _ => .fails .operandSyntax

/-- The bytes of one `db` operand. -/
def dbBytes (tok : Text) : Result (List Byte) :=
  match quoted tok with
  | some cs => stringBytes cs
  | none => (numericToken tok).andThen fun b => .ok [b]

/-- The bytes of all `db` operands, in order (R102). -/
def allDbBytes : List Text → Result (List Byte)
  | [] => .ok []
  | tok :: toks => (dbBytes tok).andThen fun bs => (allDbBytes toks).andThen fun rest => .ok (bs ++ rest)

/-- `db`: one or more literals (R98, R102). -/
def encodeDb (toks : List Text) : Result Effect :=
  if toks.isEmpty then .fails .operandSyntax else (allDbBytes toks).andThen fun bs => .ok (.emit (bs.map .byte))

/-- `org N`: moves the cursor and writes nothing (R98, R102). -/
def encodeOrg : List Text → Result Effect
  | [tok] => (numericToken tok).andThen fun b => .ok (.setCursor b.toNat)
  | _ => .fails .operandSyntax

/-- `halt`: no operand (R98). -/
def encodeHalt : List Text → Result Effect
  | [] => .ok (emitInstr .halt)
  | _ => .fails .operandSyntax

/-- The mnemonic table of R98. -/
def encodeStatement (syms : Symbols) (m : Mnemonic) (toks : List Text) : Result Effect :=
  match m with
  | .load => encodeLoad syms toks
  | .store => encodeStore syms toks
  | .move => encodeMove toks
  | .addi => threeRegisters .integerAdd toks
  | .addf => threeRegisters .floatingPointAdd toks
  | .or => threeRegisters .or toks
  | .and => threeRegisters .and toks
  | .xor => threeRegisters .xor toks
  | .ror => encodeRor toks
  | .jmp => encodeJmp syms toks
  | .jmpeq => registerAndAddress syms .jumpEqual toks
  | .jmple => registerAndAddress syms .jumpLessEqual toks
  | .halt => encodeHalt toks
  | .db => encodeDb toks
  | .org => encodeOrg toks

/-! ## Lines, the buffer and the output (R90, R97, R102 to R105) -/

/-- Append at the cursor; a write past address 255 is an error (R103; D15). -/
def emitSlots : List Slot → AsmState → Result AsmState
  | [], st => .ok st
  | slot :: slots, st =>
    if st.cursor < 256 then
      emitSlots slots { st with cursor := st.cursor + 1, buffer := (st.cursor, slot) :: st.buffer }
    else .fails .bufferOverflow

/-- Carry out a statement's effect. -/
def applyEffect (st : AsmState) : Effect → Result AsmState
  | .emit slots => emitSlots slots st
  | .setCursor n => .ok { st with cursor := n }

/-- Record a line's label at the cursor (R97). -/
def defineLabel (st : AsmState) : Option Text → AsmState
  | some name => { st with symbols := (name, st.cursor) :: st.symbols }
  | none => st

/-- A line without comment and label: nothing, or one statement (R90, R92). -/
def assembleStatement (st : AsmState) (line : Text) : Result AsmState :=
  if (trim line).isEmpty then .ok st
  else match mnemonicOf (mnemonicToken line) with
    | some m => (encodeStatement st.symbols m (operandTokens line)).andThen (applyEffect st)
    | none => .fails .unrecognizedMnemonic

/-- One line of source (R90 to R92, R97). -/
def assembleLine (st : AsmState) (line : Text) : Result AsmState :=
  (splitLabel (stripComment line)).andThen fun p => assembleStatement (defineLabel st p.1) p.2

/-- All lines, stopping at the first error (R104). -/
def assembleLines : List Text → AsmState → Result AsmState
  | [], st => .ok st
  | line :: lines, st => (assembleLine st line).andThen (assembleLines lines)

/-- The value of one buffer byte, against the completed symbol table (R103). -/
def resolve (syms : Symbols) : Slot → Result Byte
  | .byte b => .ok b
  | .deferred name =>
    match lookup name syms with
    | some off => offsetByte off
    | none => .fails .undefinedSymbol

/-- The last write to a buffer address. -/
def lastWrite (a : Nat) : List (Nat × Byte) → Option Byte
  | [] => none
  | (k, b) :: writes => if k = a then some b else lastWrite a writes

/-- Every write of the buffer with its value: a reference to a label that was never defined is an error (R103). The newest
write is looked at first (log 25). -/
def resolveAll (syms : Symbols) : List (Nat × Slot) → Result (List (Nat × Byte))
  | [] => .ok []
  | (k, slot) :: writes =>
    (resolve syms slot).andThen fun b => (resolveAll syms writes).andThen fun rest => .ok ((k, b) :: rest)

/-- The high-water mark (R103): the end of the written part of the buffer. The spec does not define the mark; here only a
written byte raises it, so an `org` with no write after it adds no bytes (DESIGN CHOICE, assumption log 24). -/
def highWater : List (Nat × Byte) → Nat
  | [] => 0
  | (k, _) :: writes => max (k + 1) (highWater writes)

/-- The buffer from offset 0 to the high-water mark; what was never written reads as 0 (R103; D15). -/
def bufferBytes (writes : List (Nat × Byte)) : List Byte :=
  (List.range (highWater writes)).map (fun a => (lastWrite a writes).getD 0x00#8)

/-- Bytes in strides of two, an odd end padded with one 0 byte (R103; D15). -/
def inPairs : List Byte → List (Byte × Byte)
  | [] => []
  | [b] => [(b, 0x00#8)]
  | b1 :: b2 :: bs => (b1, b2) :: inPairs bs

/-- Finalisation (R103). -/
def finalise (st : AsmState) : Result (List (Byte × Byte)) :=
  (resolveAll st.symbols st.buffer).andThen fun writes => .ok (inPairs (bufferBytes writes))

/-- The assembler: from source text to the instruction sequence, or the first error and no output (R104). -/
def assemble (source : Text) : Result (List (Byte × Byte)) :=
  (assembleLines (splitOn '\n' source) .start).andThen finalise

end Sys2Proof.Assembler
end

