-- ==== Sys2Proof/Safety.lean ====
section
/-! DEFINITION. The terms claims are made in: which register, cell or `pc` an instruction may write, the frames built
from them, the machine's invariant, and how a run ends (40_cycle.md R142). -/

namespace Sys2Proof.Machine

/-! ## What an instruction may write -/

/-- The one register an instruction writes, if it writes one (R23, R138). -/
def destReg : Instr → Option Reg
  | .directLoad r _ => some r
  | .immediateLoad r _ => some r
  | .directStore _ _ => none
  | .move _ dst => some dst
  | .integerAdd d _ _ => some d
  | .floatingPointAdd d _ _ => some d
  | .or d _ _ => some d
  | .and d _ _ => some d
  | .xor d _ _ => some d
  | .ror r _ => some r
  | .jumpEqual _ _ => none
  | .halt => none
  | .indirectLoad b _ => some b
  | .indirectStore _ _ => none
  | .jumpLessEqual _ _ => none
  | .unassignedOpcode0 => none

/-- The one cell an instruction stores to, if it stores (R51, R53): DirectStore's operand address and IndirectStore's
address register, read before the store. -/
def storeAddr : Instr → State → Option Byte
  | .directLoad _ _, _ => none
  | .immediateLoad _ _, _ => none
  | .directStore _ xy, _ => some (directAddr xy)
  | .move _ _, _ => none
  | .integerAdd _ _ _, _ => none
  | .floatingPointAdd _ _ _, _ => none
  | .or _ _ _, _ => none
  | .and _ _ _, _ => none
  | .xor _ _ _, _ => none
  | .ror _ _, _ => none
  | .jumpEqual _ _, _ => none
  | .halt, _ => none
  | .indirectLoad _ _, _ => none
  | .indirectStore _ c, s => some (indirectAddr s c)
  | .jumpLessEqual _ _, _ => none
  | .unassignedOpcode0, _ => none

/-- Where a taken branch of an instruction goes; none for an instruction that takes no branch in this state (R29, R200,
R202; the unsigned compare is 92_eei_decisions.md D9, assumption log 7). -/
def takenTarget : Instr → State → Option Byte
  | .directLoad _ _, _ => none
  | .immediateLoad _ _, _ => none
  | .directStore _ _, _ => none
  | .move _ _, _ => none
  | .integerAdd _ _ _, _ => none
  | .floatingPointAdd _ _ _, _ => none
  | .or _ _ _, _ => none
  | .and _ _ _, _ => none
  | .xor _ _ _, _ => none
  | .ror _ _, _ => none
  | .jumpEqual r xy, s => if s.readReg r = s.readReg 0 then some xy else none
  | .halt, _ => none
  | .indirectLoad _ _, _ => none
  | .indirectStore _ _, _ => none
  | .jumpLessEqual r xy, s => if (s.readReg r).toNat ≤ (s.readReg 0).toNat then some xy else none
  | .unassignedOpcode0, _ => none

/-! ## Frames -/

/-- Every register but those of `except` is the same. -/
def sameRegsBut (except : Option Reg) (s t : State) : Prop :=
  ∀ q : Reg, except ≠ some q → t.readReg q = s.readReg q

/-- Every memory cell but that of `except` is the same. -/
def sameMemBut (except : Option Byte) (s t : State) : Prop :=
  ∀ a : Byte, except ≠ some a → t.readMem a = s.readMem a

/-- The control state and the host's script are the same (R35 to R38). -/
def sameControl (s t : State) : Prop :=
  t.mode = s.mode ∧ t.stopRequested = s.stopRequested ∧ t.halted = s.halted ∧ t.refused = s.refused ∧
  t.hostScript = s.hostScript

/-- Only register `r` differs, and the write of it is the one notification added. -/
def onlyRegWritten (r : Reg) (s t : State) : Prop :=
  sameRegsBut (some r) s t ∧ sameMemBut none s t ∧ t.pc = s.pc ∧ t.ir = s.ir ∧ sameControl s t ∧
  t.events = s.events ++ [.regChanged r (t.readReg r)]

/-- Only the cell at `a` differs, and the write of it is the one notification added. -/
def onlyCellWritten (a : Byte) (s t : State) : Prop :=
  sameRegsBut none s t ∧ sameMemBut (some a) s t ∧ t.pc = s.pc ∧ t.ir = s.ir ∧ sameControl s t ∧
  t.events = s.events ++ [.memChanged a (t.readMem a)]

/-- Nothing differs but the control state, which is not looked at here, and no notification is added. -/
def nothingWritten (s t : State) : Prop :=
  sameRegsBut none s t ∧ sameMemBut none s t ∧ t.pc = s.pc ∧ t.ir = s.ir ∧ t.events = s.events

/-- The branch is taken: `pc` is the target, the one notification added reports it, and nothing else differs. -/
def branchTaken (xy : Byte) (s t : State) : Prop :=
  sameRegsBut none s t ∧ sameMemBut none s t ∧ t.pc = xy ∧ t.ir = s.ir ∧ sameControl s t ∧
  t.events = s.events ++ [.pcChanged xy]

/-- The machine is in a run that goes on: Running, no stop requested, not refused, and the host does nothing in the next
transition (R130, R135). The next transition is then a step. -/
def State.runsOn (s : State) : Prop :=
  s.mode = .running ∧ s.stopRequested = false ∧ s.refused = false ∧ nextHostAction s = .pass

/-! ## The invariant -/

/-- Memory is in canonical form, and a machine that is refused or halted is Idle (R137, R206, R134, R135). -/
def State.wf (s : State) : Bool :=
  s.mem.wf && (!s.refused || s.mode == .idle) && (!s.halted || s.mode == .idle)

/-! ## Runs (R135, R142) -/

/-- How a run that is over has ended (R142). -/
inductive RunEnd where
  | halted | stopped | refused
  deriving DecidableEq, Repr

/-- How the run that led to `s` ended; none while it goes on. -/
def State.runEnd (s : State) : Option RunEnd :=
  match s.mode with
  | .running => none
  | .idle => if s.refused then some .refused else if s.halted then some .halted else some .stopped

/-- At most `k` transitions of a run: it stops as soon as the machine is Idle. -/
def runFor : Nat → State → Host.Outcome State Fault Refusal
  | 0, s => .next s
  | k + 1, s =>
    match s.mode with
    | .idle => .next s
    | .running =>
      match step s with
      | .next t => runFor k t
      | .fault r => .fault r
      | .refused r => .refused r

/-- The run from `s` ends in the way `e`. -/
def RunEndsWith (s : State) (e : RunEnd) : Prop := ∃ k t, runFor k s = .next t ∧ t.runEnd = some e

/-- The run from `s` goes on for ever. -/
def RunsForever (s : State) : Prop := ∀ k, ∃ t, runFor k s = .next t ∧ t.mode = .running

/-- "A correct program's run is one that ends halted with `refused = false`" (R142). -/
def CorrectRun (s : State) : Prop := RunEndsWith s .halted

/-- The host action is one that R236 admits during a run: nothing, or a stop request. -/
def HostAction.admittedDuringRun : HostAction → Bool
  | .pass => true
  | .stop => true
  | .stopMidStep => true
  | .resetPc => false
  | .clearRegisters => false
  | .writeRegister _ _ => false
  | .clearMemory => false
  | .writeMemory _ _ => false
  | .load _ => false
  | .singleStep _ => false
  | .run => false

end Sys2Proof.Machine
end

