-- ==== Sys2Proof/Certificates/Slice0/Obligations.lean ====
section
/-! DEFINITION. The statements about this model, each a numbered rule of spec/ or derived from the sections it names. A
docstring that names a decision D<n> of 92_eei_decisions.md says that the spec calls that part its own choice. -/

open Sys2Proof Sys2Proof.Machine

/-! ## Encoding -/

/-- R81, R82, R83, R84: the sixteen rows of the opcode map, with every operand at every value. The numbers are the
spec's own choice, D1 (log 4); the fields of Move are D7 (log 8); that ignored nibbles are ignored is D4 (log 5). -/
def Obligations.DecodeReadsEveryTableRow : Prop :=
  ∀ a b c : Nibble,
    decode (0x1#4 ++ a ++ b ++ c) = .directLoad a.toFin (b ++ c) ∧
    decode (0x2#4 ++ a ++ b ++ c) = .immediateLoad a.toFin (b ++ c) ∧
    decode (0x3#4 ++ a ++ b ++ c) = .directStore a.toFin (b ++ c) ∧
    decode (0x4#4 ++ a ++ b ++ c) = .move b.toFin c.toFin ∧
    decode (0x5#4 ++ a ++ b ++ c) = .integerAdd a.toFin b.toFin c.toFin ∧
    decode (0x6#4 ++ a ++ b ++ c) = .floatingPointAdd a.toFin b.toFin c.toFin ∧
    decode (0x7#4 ++ a ++ b ++ c) = .or a.toFin b.toFin c.toFin ∧
    decode (0x8#4 ++ a ++ b ++ c) = .and a.toFin b.toFin c.toFin ∧
    decode (0x9#4 ++ a ++ b ++ c) = .xor a.toFin b.toFin c.toFin ∧
    decode (0xA#4 ++ a ++ b ++ c) = .ror a.toFin c.toNat ∧
    decode (0xB#4 ++ a ++ b ++ c) = .jumpEqual a.toFin (b ++ c) ∧
    decode (0xC#4 ++ a ++ b ++ c) = .halt ∧
    decode (0xD#4 ++ a ++ b ++ c) = .indirectLoad b.toFin c.toFin ∧
    decode (0xE#4 ++ a ++ b ++ c) = .indirectStore b.toFin c.toFin ∧
    decode (0xF#4 ++ a ++ b ++ c) = .jumpLessEqual a.toFin (b ++ c) ∧
    decode (0x0#4 ++ a ++ b ++ c) = .unassignedOpcode0

/-- Words of 95_test_vectors.md, written out, and the instructions they stand for (D1, D4, D7; logs 4, 5, 8). -/
def Obligations.WrittenOutWordsDecode : Prop :=
  decodeBytes [0x21#8, 0x05#8] = .ok (.immediateLoad 1 0x05#8, []) ∧
  decodeBytes [0x1A#8, 0xFF#8] = .ok (.directLoad 10 0xFF#8, []) ∧
  decodeBytes [0xD7#8, 0x23#8] = .ok (.indirectLoad 2 3, []) ∧
  decodeBytes [0x40#8, 0x46#8] = .ok (.move 4 6, []) ∧
  decodeBytes [0x51#8, 0x23#8] = .ok (.integerAdd 1 2 3, []) ∧
  decodeBytes [0xA1#8, 0xF3#8] = .ok (.ror 1 3, []) ∧
  decodeBytes [0xB0#8, 0x05#8] = .ok (.jumpEqual 0 0x05#8, []) ∧
  decodeBytes [0xCF#8, 0xFF#8] = .ok (.halt, []) ∧
  decodeBytes [0x0F#8, 0xFF#8] = .ok (.unassignedOpcode0, [])

/-- Decode and encode agree (guide, "Claims worth proving"; R80, R82): the bytes of every well-formed instruction,
followed by anything, decode to it and leave what follows. -/
def Obligations.DecodeOfEncodeIsTheInstruction : Prop :=
  ∀ (i : Instr) (rest : List Byte), i.wellFormed = true →
    decodeBytes (encodeBytes i ++ rest) = .ok (i, rest)

/-- The other direction (R87, R98; D4, log 5): encoding what a word decodes to gives the word with the bits its format
ignores cleared, and no other bit changed. -/
def Obligations.EncodeOfDecodeClearsIgnoredBits : Prop :=
  ∀ w : Word, encode (decode w) = w &&& ~~~(ignoredBits w)

/-- R87 (D4, log 5): a word decodes as any word that differs from it only in bits its format ignores. -/
def Obligations.IgnoredBitsDoNotAffectDecoding : Prop :=
  ∀ w v : Word, w &&& ~~~(ignoredBits w) = v &&& ~~~(ignoredBits w) → decode v = decode w

/-- R83, R85: every word decodes to a well-formed instruction; R80: only fewer than two bytes are no instruction. -/
def Obligations.DecodingIsTotalAndWellFormed : Prop :=
  (∀ w : Word, (decode w).wellFormed = true) ∧
  (∀ bytes : List Byte, decodeBytes bytes = .error .truncated ↔ bytes.length < 2)

/-! ## Reset and the invariant -/

/-- R39, first column. `pc`, `ir`, the mode and the flags are the spec's values (its own choice, D5, D6, D10); that the
registers and the cells hold 0x00 is this model's DESIGN CHOICE (logs 2 and 3). -/
def Obligations.ResetValues : Prop :=
  State.reset.pc = 0x00#8 ∧ State.reset.ir = 0x0000#16 ∧ State.reset.mode = .idle ∧
  State.reset.stopRequested = false ∧ State.reset.halted = false ∧ State.reset.refused = false ∧
  (∀ r : Reg, State.reset.readReg r = 0x00#8) ∧ (∀ a : Byte, State.reset.readMem a = 0x00#8)

/-- The machine's invariant holds at reset. -/
def Obligations.ResetIsWellFormed : Prop := State.reset.wf = true

/-- Every transition keeps the invariant: memory stays in canonical form, and a machine that is refused or halted is
Idle (R137, R206, R134, R135). -/
def Obligations.StepKeepsWellFormed : Prop :=
  ∀ s t : State, s.wf = true → step s = .next t → t.wf = true

/-! ## The step -/

/-- R55, R56, R131, R132: the fetch reads the bytes at `pc` and `pc + 1` (mod 256) into `ir`, byte1 high, and `pc` moves
on by 2 (mod 256); no register and no cell changes. -/
def Obligations.FetchLoadsIrAndIncrementsPc : Prop :=
  ∀ s : State,
    (fetch s).ir = s.readMem s.pc ++ s.readMem (s.pc + 1#8) ∧
    (fetch s).pc = s.pc + 2#8 ∧
    (s.pc = 0xFE#8 → (fetch s).pc = 0x00#8) ∧
    (s.pc = 0xFF#8 → (fetch s).pc = 0x01#8 ∧ (fetch s).ir = s.readMem 0xFF#8 ++ s.readMem 0x00#8) ∧
    sameRegsBut none s (fetch s) ∧ sameMemBut none s (fetch s) ∧ sameControl s (fetch s)

/-- R130, R131, R132, R133, R140: in a run that goes on, when the two bytes at `pc` decode to `i`, the step is the
execution of `i` after `ir` is loaded and `pc` incremented, with the events of both writes (D11, log 16). -/
def Obligations.StepRunsDecodedInstruction : Prop :=
  ∀ (s : State) (i : Instr) (rest : List Byte), s.runsOn →
    decodeBytes [s.readMem s.pc, s.readMem (s.pc + 1#8)] = .ok (i, rest) →
    step s = exec i { s with
      ir := s.readMem s.pc ++ s.readMem (s.pc + 1#8), pc := s.pc + 2#8,
      events := [.irChanged (s.readMem s.pc ++ s.readMem (s.pc + 1#8)), .pcChanged (s.pc + 2#8)],
      hostScript := s.hostScript.tail }

/-- R139: no step fails. In a run that goes on, whatever stands in the registers and in memory, the step has a next
state. R139 excepts the refusal of an `op = 0x0` word; that it too is a next state, with `refused` set, is the spec's own
choice D5 (log 9). Single steps are in `SingleStepExecutesOneInstruction`. -/
def Obligations.NoStepFails : Prop :=
  ∀ s : State, s.runsOn → ∃ t, step s = .next t

/-- R23, R51, R138: an executed instruction writes at most the one register, or the one cell, that its form names, never
both; `ir`, the stop request and the host's script are kept. -/
def Obligations.OneRegisterOrOneCellIsWritten : Prop :=
  ∀ (i : Instr) (s t : State), exec i s = .next t →
    sameRegsBut (destReg i) s t ∧ sameMemBut (storeAddr i s) s t ∧
    (destReg i = none ∨ storeAddr i s = none) ∧
    t.ir = s.ir ∧ t.stopRequested = s.stopRequested ∧ t.hostScript = s.hostScript

/-- R138: a step of a run writes at most the one register, or the one cell, that the fetched instruction names, and never
both; besides these only `ir`, `pc`, `mode`, `halted` and `refused` may change (and the model's own channels to the
host). -/
def Obligations.StepWritesOneRegisterOrOneCell : Prop :=
  ∀ s t : State, s.runsOn → step s = .next t →
    sameRegsBut (destReg (decode s.fetchWord)) s t ∧ sameMemBut (storeAddr (decode s.fetchWord) s) s t ∧
    (destReg (decode s.fetchWord) = none ∨ storeAddr (decode s.fetchWord) s = none) ∧
    t.stopRequested = s.stopRequested

/-- R29: of the executed instructions, only a taken JumpEqual or JumpLessEqual writes `pc`, and it writes its operand.
The unsigned compare is D9 (log 7). -/
def Obligations.OnlyTakenBranchesWritePc : Prop :=
  ∀ (i : Instr) (s t : State), exec i s = .next t → t.pc ≠ s.pc →
    ∃ (r : Reg) (xy : Byte), t.pc = xy ∧
      ((i = .jumpEqual r xy ∧ s.readReg r = s.readReg 0) ∨
       (i = .jumpLessEqual r xy ∧ (s.readReg r).toNat ≤ (s.readReg 0).toNat))

/-- R29, R31: no instruction reads `pc` or `ir` as data. Two executions that start with different `pc` and `ir` write the
same registers, the same cells, the same control state and the same events; each keeps its own `ir`, and its own `pc`
unless both take the branch. -/
def Obligations.PcAndIrAreNotData : Prop :=
  ∀ (i : Instr) (s : State) (p : Byte) (w : Word), ∃ t u,
    exec i s = .next t ∧ exec i { s with pc := p, ir := w } = .next u ∧
    u.regs = t.regs ∧ u.mem = t.mem ∧ sameControl t u ∧ u.events = t.events ∧
    t.ir = s.ir ∧ u.ir = w ∧ ((t.pc = s.pc ∧ u.pc = p) ∨ u.pc = t.pc)

/-- R30: in every transition `ir` is kept or becomes the word at `pc`; R31: nothing but a fetch writes it. -/
def Obligations.IrIsWrittenOnlyByTheFetch : Prop :=
  ∀ s t : State, step s = .next t → t.ir ≠ s.ir → t.ir = s.readMem s.pc ++ s.readMem (s.pc + 1#8)

/-- R140, R141: the events of a step in a run are IrChanged, PcChanged, and the one of the fetched instruction's own write:
its destination register, the cell it stores to, or the target of its taken branch; an instruction that writes none of
these adds nothing. Each carries what the state then holds. An event for every write is D11 (log 16); the unsigned compare
is D9 (log 7). -/
def Obligations.EventsComeInWriteOrder : Prop :=
  ∀ s : State, s.runsOn → ∃ t, step s = .next t ∧ t.ir = s.fetchWord ∧
    (∀ r : Reg, destReg (decode s.fetchWord) = some r →
      t.events = [.irChanged s.fetchWord, .pcChanged (s.pc + 2#8), .regChanged r (t.readReg r)]) ∧
    (∀ a : Byte, storeAddr (decode s.fetchWord) s = some a →
      t.events = [.irChanged s.fetchWord, .pcChanged (s.pc + 2#8), .memChanged a (t.readMem a)]) ∧
    (∀ xy : Byte, takenTarget (decode s.fetchWord) s = some xy →
      t.pc = xy ∧ t.events = [.irChanged s.fetchWord, .pcChanged (s.pc + 2#8), .pcChanged xy]) ∧
    (destReg (decode s.fetchWord) = none → storeAddr (decode s.fetchWord) s = none →
      takenTarget (decode s.fetchWord) s = none →
      t.pc = s.pc + 2#8 ∧ t.events = [.irChanged s.fetchWord, .pcChanged (s.pc + 2#8)])

/-- R63, R64, R168: a DirectStore or an IndirectStore into the two bytes that the next step fetches is seen by that fetch,
and the store itself is executed as it was fetched, wherever it stores. -/
def Obligations.StoreIsSeenByTheNextFetch : Prop :=
  ∀ (s : State) (r : Reg) (a : Byte), s.runsOn → nextHostAction { s with hostScript := s.hostScript.tail } = .pass →
    (decode s.fetchWord = .directStore r a ∨ ∃ c, decode s.fetchWord = .indirectStore r c ∧ s.readReg c = a) →
    ∃ t u, step s = .next t ∧ step t = .next u ∧ storeAddr (decode s.fetchWord) s = some a ∧
      t.ir = s.readMem s.pc ++ s.readMem (s.pc + 1#8) ∧ t.readMem a = s.readReg r ∧
      (a = s.pc + 2#8 → u.ir = s.readReg r ++ s.readMem (s.pc + 3#8)) ∧
      (a = s.pc + 3#8 → u.ir = s.readMem (s.pc + 2#8) ++ s.readReg r) ∧
      (a ≠ s.pc + 2#8 → a ≠ s.pc + 3#8 → u.ir = s.readMem (s.pc + 2#8) ++ s.readMem (s.pc + 3#8))

/-! ## Registers and memory -/

/-- R21: the registers do not alias. Writing one, whichever it is, gives it the value and changes no other register, no
cell and not `pc`; writing a cell or `pc` changes no register. -/
def Obligations.RegistersDoNotAlias : Prop :=
  ∀ (s : State) (i : Reg) (a v : Byte),
    (s.writeReg i v).readReg i = v ∧ onlyRegWritten i s (s.writeReg i v) ∧
    sameRegsBut none s (s.writeMem a v) ∧ sameRegsBut none s (s.writePc v)

/-- R60: a read gives the cell's value and is a function of the state; a write sets its cell, and no other cell, register
or control state, with one notification; writing twice reads as writing once. -/
def Obligations.MemoryWriteSetsOnlyItsCell : Prop :=
  ∀ (s : State) (a v : Byte),
    (s.writeMem a v).readMem a = v ∧ onlyCellWritten a s (s.writeMem a v) ∧
    (∀ b : Byte, ((s.writeMem a v).writeMem a v).readMem b = (s.writeMem a v).readMem b) ∧
    (s.mem.wf = true → (s.writeMem a v).mem.wf = true)

/-- Two memories in canonical form that read alike everywhere are equal data. -/
def Obligations.CanonicalMemoriesThatReadAlikeAreEqual : Prop :=
  ∀ m m' : Memory, m.wf = true → m'.wf = true → (∀ a : Byte, m.get a.toNat = m'.get a.toNat) → m = m'

/-! ## Data transfer (41_transfer.md) -/

/-- R160: ImmediateLoad. -/
def Obligations.ImmediateLoadSetsItsRegister : Prop :=
  ∀ (r : Reg) (xy : Byte) (s : State), ∃ t, exec (.immediateLoad r xy) s = .next t ∧
    t.readReg r = xy ∧ onlyRegWritten r s t

/-- R162: DirectLoad. -/
def Obligations.DirectLoadReadsItsCell : Prop :=
  ∀ (r : Reg) (xy : Byte) (s : State), ∃ t, exec (.directLoad r xy) s = .next t ∧
    t.readReg r = s.readMem xy ∧ onlyRegWritten r s t

/-- R164: IndirectLoad; the address register is read before the destination is written, also where they are one. -/
def Obligations.IndirectLoadReadsTheCellItsRegisterNames : Prop :=
  ∀ (b c : Reg) (s : State), ∃ t, exec (.indirectLoad b c) s = .next t ∧
    t.readReg b = s.readMem (s.readReg c) ∧ onlyRegWritten b s t

/-- R166: DirectStore. -/
def Obligations.DirectStoreWritesItsCell : Prop :=
  ∀ (r : Reg) (xy : Byte) (s : State), ∃ t, exec (.directStore r xy) s = .next t ∧
    t.readMem (directAddr xy) = s.readReg r ∧ directAddr xy = xy ∧ onlyCellWritten (directAddr xy) s t

/-- R168: IndirectStore. -/
def Obligations.IndirectStoreWritesTheCellItsRegisterNames : Prop :=
  ∀ (b c : Reg) (s : State), ∃ t, exec (.indirectStore b c) s = .next t ∧
    t.readMem (indirectAddr s c) = s.readReg b ∧ indirectAddr s c = s.readReg c ∧
    onlyCellWritten (indirectAddr s c) s t

/-- R170: Move copies its first register into its second (the direction is the spec's own choice, D7, log 8). -/
def Obligations.MoveCopiesSourceToDestination : Prop :=
  ∀ (src dst : Reg) (s : State), ∃ t, exec (.move src dst) s = .next t ∧
    t.readReg dst = s.readReg src ∧ onlyRegWritten dst s t

/-! ## ALU (42_alu.md) -/

/-- R178, R180: IntegerAdd is addition modulo 256, and no carry is kept anywhere. -/
def Obligations.IntegerAddWrapsModulo256 : Prop :=
  ∀ (d sr tr : Reg) (s : State), ∃ t, exec (.integerAdd d sr tr) s = .next t ∧
    (t.readReg d).toNat = ((s.readReg sr).toNat + (s.readReg tr).toNat) % 256 ∧ onlyRegWritten d s t

/-- R182: FloatingPointAdd writes the parameter `fpAdd` of its two operands, whatever function that is (D8, log 1). -/
def Obligations.FloatingPointAddAppliesFpAdd : Prop :=
  ∀ (d sr tr : Reg) (s : State), ∃ t, exec (.floatingPointAdd d sr tr) s = .next t ∧
    t.readReg d = Config.fpAdd (s.readReg sr) (s.readReg tr) ∧ onlyRegWritten d s t

/-- R184, R186, R188: Or, And and Xor, bit by bit. -/
def Obligations.OrAndXorCombineBits : Prop :=
  ∀ (d sr tr : Reg) (s : State),
    (∃ t, exec (.or d sr tr) s = .next t ∧ onlyRegWritten d s t ∧
      ∀ k < 8, (t.readReg d).getLsbD k = ((s.readReg sr).getLsbD k || (s.readReg tr).getLsbD k)) ∧
    (∃ t, exec (.and d sr tr) s = .next t ∧ onlyRegWritten d s t ∧
      ∀ k < 8, (t.readReg d).getLsbD k = ((s.readReg sr).getLsbD k && (s.readReg tr).getLsbD k)) ∧
    (∃ t, exec (.xor d sr tr) s = .next t ∧ onlyRegWritten d s t ∧
      ∀ k < 8, (t.readReg d).getLsbD k = ((s.readReg sr).getLsbD k ^^ (s.readReg tr).getLsbD k))

/-- R190: bit `k` of Ror's result is bit `(k + n) mod 8` of the register, for every count. -/
def Obligations.RorMovesBitsRightAroundTheByte : Prop :=
  ∀ (r : Reg) (n : Nat) (s : State), ∃ t, exec (.ror r n) s = .next t ∧ onlyRegWritten r s t ∧
    ∀ k < 8, (t.readReg r).getLsbD k = (s.readReg r).getLsbD ((k + n) % 8)

/-- R190: a rotate by `n` and one by `n mod 8` have the same result, and a rotate by 0 or 8 keeps the value. -/
def Obligations.RorCountReducesModulo8 : Prop :=
  ∀ (r : Reg) (n : Nat) (s : State),
    exec (.ror r n) s = exec (.ror r (n % 8)) s ∧
    ∃ t, exec (.ror r (8 * n)) s = .next t ∧ t.readReg r = s.readReg r

/-! ## Control (43_control.md) -/

/-- R200: JumpEqual, taken and not taken. -/
def Obligations.JumpEqualBranchesOnEquality : Prop :=
  ∀ (r : Reg) (xy : Byte) (s : State), ∃ t, exec (.jumpEqual r xy) s = .next t ∧
    (s.readReg r = s.readReg 0 → branchTaken xy s t) ∧ (s.readReg r ≠ s.readReg 0 → t = s)

/-- R202: JumpLessEqual, taken and not taken; the compare is unsigned (the spec's own choice, D9, log 7). -/
def Obligations.JumpLessEqualBranchesOnUnsignedOrder : Prop :=
  ∀ (r : Reg) (xy : Byte) (s : State), ∃ t, exec (.jumpLessEqual r xy) s = .next t ∧
    ((s.readReg r).toNat ≤ (s.readReg 0).toNat → branchTaken xy s t) ∧
    ((s.readReg 0).toNat < (s.readReg r).toNat → t = s)

/-- R204: with register field 0 both jumps always branch. -/
def Obligations.JumpsOnR0AlwaysBranch : Prop :=
  ∀ (xy : Byte) (s : State),
    exec (.jumpEqual 0 xy) s = .next (s.writePc xy) ∧ exec (.jumpLessEqual 0 xy) s = .next (s.writePc xy)

/-- R206: Halt makes the machine halted and Idle, and changes nothing else (`halted` is the spec's bookkeeping, D10). -/
def Obligations.HaltStopsTheMachine : Prop :=
  ∀ s : State, ∃ t, exec .halt s = .next t ∧ t.halted = true ∧ t.mode = .idle ∧
    t.refused = s.refused ∧ t.stopRequested = s.stopRequested ∧ t.hostScript = s.hostScript ∧ nothingWritten s t

/-- R206, R142 (D10): a Halt in a run ends it halted, with `pc` 2 past the Halt (mod 256), its word in `ir`, and every
register and cell kept. -/
def Obligations.HaltEndsTheRunPastItself : Prop :=
  ∀ s : State, s.runsOn → decode s.fetchWord = .halt →
    ∃ t, step s = .next t ∧ t.runEnd = some .halted ∧ t.halted = true ∧ t.mode = .idle ∧ t.refused = false ∧
      t.pc = s.pc + 2#8 ∧ t.ir = s.fetchWord ∧ sameRegsBut none s t ∧ sameMemBut none s t

/-- R137, R86 (the spec's own choice, D5, log 9): the execute part of an `op = 0x0` word marks the machine refused and
Idle, and changes nothing else. -/
def Obligations.UnassignedOpcodeRefuses : Prop :=
  ∀ s : State, ∃ t, exec .unassignedOpcode0 s = .next t ∧ t.refused = true ∧ t.mode = .idle ∧
    t.halted = s.halted ∧ t.stopRequested = s.stopRequested ∧ t.hostScript = s.hostScript ∧ nothingWritten s t

/-! ## Driving steps (40_cycle.md section 2) -/

/-- R134 (D10, D14): a single step of an Idle machine executes the instruction at `pc`, ends Idle, and is halted exactly
when that instruction is Halt. R39 says that a single step leaves the stop request unchanged, and it keeps the one it
finds; that one arriving meanwhile is recorded and stays is the model's own choice (DEDUCED, log 22). -/
def Obligations.SingleStepExecutesOneInstruction : Prop :=
  ∀ (s : State) (stopArrives : Bool) (rest : List HostAction), s.mode = .idle → s.refused = false →
    s.hostScript = .singleStep stopArrives :: rest →
    ∃ t u, exec (decode s.fetchWord)
        (fetch { s with mode := .running, halted := false, events := [], hostScript := rest }) = .next t ∧
      step s = .next u ∧ u.mode = .idle ∧ (u.halted = true ↔ decode s.fetchWord = .halt) ∧
      u.stopRequested = (s.stopRequested || stopArrives) ∧ u.hostScript = rest ∧
      u.regs = t.regs ∧ u.mem = t.mem ∧ u.pc = t.pc ∧ u.ir = t.ir ∧ u.refused = t.refused ∧ u.events = t.events

/-- R135 (D14): a run starts from the present `pc`, clears `halted` and the stop request, and changes nothing else. -/
def Obligations.RunStartsWhereItIs : Prop :=
  ∀ (s : State) (rest : List HostAction), s.mode = .idle → s.refused = false → s.hostScript = .run :: rest →
    step s = .next { s with mode := .running, halted := false, stopRequested := false, events := [], hostScript := rest }

/-- R136: a stop request takes effect at the next instruction boundary. A request already made, or arriving between
instructions, ends the run without another step; one that arrives during a step lets it complete with all its effects, and
if the step has not itself ended the run, the next pass of the loop returns to Idle without another step. That a request
arrives either between instructions (stop) or during one (stopMidStep) is the form of the model's host actions (log 22). -/
def Obligations.StopTakesEffectAtABoundary : Prop :=
  ∀ s : State, s.mode = .running →
    (s.stopRequested = true → nextHostAction s = .pass ∨ nextHostAction s = .stopMidStep →
      step s = .next { s with mode := .idle, events := [], hostScript := s.hostScript.tail }) ∧
    (nextHostAction s = .stop →
      step s = .next { s with mode := .idle, stopRequested := true, events := [], hostScript := s.hostScript.tail }) ∧
    (s.stopRequested = false → s.refused = false → nextHostAction s = .stopMidStep →
      ∃ t, exec (decode s.fetchWord) (fetch { s with events := [], hostScript := s.hostScript.tail }) = .next t ∧
        step s = .next { t with stopRequested := true } ∧
        (t.mode = .running → (nextHostAction t).admittedDuringRun = true →
          step { t with stopRequested := true } =
            .next { t with mode := .idle, stopRequested := true, events := [], hostScript := t.hostScript.tail }))

/-- R223 (D14): a stop request that arrives while a Halt executes leaves the run halted, not stopped. -/
def Obligations.HaltWinsOverAStopDuringIt : Prop :=
  ∀ (s : State) (rest : List HostAction), s.mode = .running → s.stopRequested = false → s.refused = false →
    s.hostScript = .stopMidStep :: rest → decode s.fetchWord = .halt →
    ∃ t, step s = .next t ∧ t.halted = true ∧ t.mode = .idle ∧ t.runEnd = some .halted

/-- R130, R137 (D5): a refused machine takes no step and starts no run. -/
def Obligations.RefusedMachineTakesNoStep : Prop :=
  ∀ (s : State) (rest : List HostAction), s.mode = .idle → s.refused = true →
    (s.hostScript = .run :: rest → step s = .refused .machineRefused) ∧
    (∀ b : Bool, s.hostScript = .singleStep b :: rest → step s = .refused .machineRefused)

/-- R38 (D5): no transition clears `refused`, and one sets it only by executing an `op = 0x0` word. -/
def Obligations.RefusedIsNeverCleared : Prop :=
  ∀ s t : State, step s = .next t →
    (s.refused = true → t.refused = true) ∧
    (s.refused = false → t.refused = true → decode s.fetchWord = .unassignedOpcode0)

/-- R244: Idle is left only by the host's run (a single step is over within its transition), and Running only by a stop
request, by Halt or by the refusal. -/
def Obligations.ModeChangesOnlyAsNamed : Prop :=
  ∀ s t : State, step s = .next t →
    (s.mode = .idle → t.mode = .running → nextHostAction s = .run) ∧
    (s.mode = .running → t.mode = .idle →
      s.stopRequested = true ∨ nextHostAction s = .stop ∨
      decode s.fetchWord = .halt ∨ decode s.fetchWord = .unassignedOpcode0)

/-- R244: an Idle machine whose host does nothing, at the end of its script or by an entry that says so, keeps all its
state; of the model's two channels, the events are delivered and the host's entry is taken (log 6). -/
def Obligations.IdlePreservesAllState : Prop :=
  ∀ s : State, s.mode = .idle → nextHostAction s = .pass →
    step s = .next { s with events := [], hostScript := s.hostScript.tail }

/-- R142: the run of a machine that is Running, not halted and not refused, with a host that does nothing but request
stops, either goes on for ever and never ends, or ends, and then in exactly one of the three ways. -/
def Obligations.ARunEndsInExactlyOneWay : Prop :=
  ∀ s : State, s.mode = .running → s.refused = false → s.halted = false →
    (∀ act ∈ s.hostScript, act.admittedDuringRun = true) →
    (RunsForever s ∧ ∀ e, ¬ RunEndsWith s e) ∨
    (¬ RunsForever s ∧ ∃ e, RunEndsWith s e ∧ ∀ e', RunEndsWith s e' → e' = e)

/-! ## Host controls (60_exceptions.md section 6) -/

/-- R231: reset PC. -/
def Obligations.ResetPcChangesOnlyPc : Prop :=
  ∀ (s : State) (rest : List HostAction), s.mode = .idle → s.hostScript = .resetPc :: rest →
    step s = .next { s with pc := 0x00#8, events := [.pcChanged 0x00#8], hostScript := rest }

/-- R232: clear registers. -/
def Obligations.ClearRegistersZeroesAllSixteen : Prop :=
  ∀ (s : State) (rest : List HostAction), s.mode = .idle → s.hostScript = .clearRegisters :: rest →
    ∃ t, step s = .next t ∧ (∀ i : Reg, t.readReg i = 0x00#8) ∧ t.pc = s.pc ∧ t.ir = s.ir ∧
      sameMemBut none s t ∧ t.mode = s.mode ∧ t.stopRequested = s.stopRequested ∧ t.halted = s.halted ∧
      t.refused = s.refused

/-- R234: clear memory. -/
def Obligations.ClearMemoryZeroesAll256Cells : Prop :=
  ∀ (s : State) (rest : List HostAction), s.mode = .idle → s.hostScript = .clearMemory :: rest →
    ∃ t, step s = .next t ∧ (∀ a : Byte, t.readMem a = 0x00#8) ∧ t.pc = s.pc ∧ t.ir = s.ir ∧
      sameRegsBut none s t ∧ t.mode = s.mode ∧ t.stopRequested = s.stopRequested ∧ t.halted = s.halted ∧
      t.refused = s.refused

/-- R233: the host writes one register, with its event, and reads back what it wrote; a read is a function of the state. -/
def Obligations.HostWritesOneRegister : Prop :=
  ∀ (s : State) (i : Reg) (v : Byte) (rest : List HostAction), s.mode = .idle →
    s.hostScript = .writeRegister i v :: rest →
    ∃ t, step s = .next t ∧ hostReadRegister t i = v ∧ (∀ q : Reg, q ≠ i → hostReadRegister t q = hostReadRegister s q) ∧
      t = { s with regs := t.regs, events := [.regChanged i v], hostScript := rest }

/-- R235: the host writes one memory cell, with its event, and reads back what it wrote. -/
def Obligations.HostWritesOneCell : Prop :=
  ∀ (s : State) (a v : Byte) (rest : List HostAction), s.mode = .idle → s.hostScript = .writeMemory a v :: rest →
    ∃ t, step s = .next t ∧ hostReadMemory t a = v ∧ (∀ b : Byte, b ≠ a → hostReadMemory t b = hostReadMemory s b) ∧
      t = { s with mem := t.mem, events := [.memChanged a v], hostScript := rest }

/-- R238: the loader puts instruction `k` at `2k` and `2k + 1` and writes no cell beyond the sequence. -/
def Obligations.LoaderPlacesTheProgramFromAddress0 : Prop :=
  ∀ (s : State) (image : List (Byte × Byte)) (rest : List HostAction), s.mode = .idle →
    s.hostScript = .load image :: rest → image.length ≤ 128 →
    ∃ t, step s = .next t ∧
      (∀ (k : Nat) (b1 b2 : Byte), image[k]? = some (b1, b2) →
        t.readMem (BitVec.ofNat 8 (2 * k)) = b1 ∧ t.readMem (BitVec.ofNat 8 (2 * k + 1)) = b2) ∧
      (∀ a : Byte, 2 * image.length ≤ a.toNat → t.readMem a = s.readMem a) ∧
      sameRegsBut none s t ∧ t.pc = s.pc ∧ t.ir = s.ir ∧ t.mode = s.mode

/-- R254: an image of more than 256 bytes cannot be loaded. -/
def Obligations.TooLongAnImageIsNotLoaded : Prop :=
  ∀ (s : State) (image : List (Byte × Byte)) (rest : List HostAction), s.mode = .idle →
    s.hostScript = .load image :: rest → 256 < 2 * image.length → step s = .refused .imageTooLong

/-- R236 (D12, log 11): a host write, and the start of a step or a run, has no move during a run. -/
def Obligations.HostWritesHaveNoMoveDuringARun : Prop :=
  ∀ s : State, s.mode = .running → (nextHostAction s).admittedDuringRun = false →
    step s = .refused .hostActionNotAdmitted

/-! ## The assembler (30_encoding.md section 6) -/

/-- R101: `jmp A` assembles exactly as `jmpeq R0, A`, for every token. -/
def Obligations.JmpAssemblesAsJmpeqR0 : Prop :=
  ∀ (syms : Assembler.Symbols) (tok : Assembler.Text),
    Assembler.encodeStatement syms .jmp [tok] = Assembler.encodeStatement syms .jmpeq [['R', '0'], tok]

/-- R100: `ror` with a literal of value 0 to 15 emits the encoded instruction; with any other literal that is a byte it is
out of range, a negative one included. R93, R98, R104: a literal that is no byte, and a count that is no numeric literal,
is a syntax error (the range of a literal is the spec's own choice D16, log 15). -/
def Obligations.RorAssemblesOnlyCountsBelow16 : Prop :=
  ∀ (r : Reg) (reg count : Assembler.Text), Assembler.register reg = some r →
    (∀ v : Int, Assembler.numeric count = some v →
      (0 ≤ v → v < 16 → Assembler.encodeRor [reg, count] = .ok (Assembler.emitInstr (.ror r v.toNat))) ∧
      (16 ≤ v → v ≤ 255 → Assembler.encodeRor [reg, count] = .fails .outOfRangeImmediate) ∧
      (-128 ≤ v → v < 0 → Assembler.encodeRor [reg, count] = .fails .outOfRangeImmediate) ∧
      (v < -128 ∨ 255 < v → Assembler.encodeRor [reg, count] = .fails .operandSyntax)) ∧
    (Assembler.numeric count = none → Assembler.encodeRor [reg, count] = .fails .operandSyntax)

/-- R103, R254 (the buffer's end is the spec's own choice, D15): whatever the source, an assembled program fits memory, so
the loader never turns it away. -/
def Obligations.AssembledProgramsFitMemory : Prop :=
  ∀ (source : Assembler.Text) (image : List (Byte × Byte)), Assembler.assemble source = .ok image →
    imageFits image = true
end

