-- ==== Sys2Proof/Laws/Decode.lean ====
section
/-! SUPPORT. The decoder's and encoder's parts, each undone by the other. -/

namespace Sys2Proof

@[simp] theorem opcodeMap_nibble (op : Opcode) : opcodeMap op.nibble = some op := by cases op <;> rfl

@[simp] theorem regOfNibble_nibbleOfReg (r : Reg) : regOfNibble (nibbleOfReg r) = r := rfl

@[simp] theorem nibbleOfReg_regOfNibble (n : Nibble) : nibbleOfReg (regOfNibble n) = n := rfl

/-! ## The fields of a word put together from its parts (R81, R82) -/

@[simp] theorem opField_wordRXY (op : Opcode) (r : Reg) (xy : Byte) : opField (wordRXY op r xy) = op.nibble := by
  simp only [opField, wordRXY]; ext i hi; simp [BitVec.getElem_extractLsb']; grind

@[simp] theorem aField_wordRXY (op : Opcode) (r : Reg) (xy : Byte) : aField (wordRXY op r xy) = nibbleOfReg r := by
  simp only [aField, wordRXY]; ext i hi; simp [BitVec.getElem_extractLsb']; grind

@[simp] theorem xyField_wordRXY (op : Opcode) (r : Reg) (xy : Byte) : xyField (wordRXY op r xy) = xy := by
  simp only [xyField, wordRXY]; ext i hi; simp [BitVec.getElem_extractLsb']; grind

@[simp] theorem opField_wordNibbles (op a b c : Nibble) : opField (wordNibbles op a b c) = op := by
  simp only [opField, wordNibbles]; ext i hi; simp [BitVec.getElem_extractLsb']; grind

@[simp] theorem aField_wordNibbles (op a b c : Nibble) : aField (wordNibbles op a b c) = a := by
  simp only [aField, wordNibbles]; ext i hi; simp [BitVec.getElem_extractLsb']; grind

@[simp] theorem bField_wordNibbles (op a b c : Nibble) : bField (wordNibbles op a b c) = b := by
  simp only [bField, wordNibbles]; ext i hi; simp [BitVec.getElem_extractLsb']; grind

@[simp] theorem cField_wordNibbles (op a b c : Nibble) : cField (wordNibbles op a b c) = c := by
  simp only [cField, wordNibbles]; ext i hi; simp [BitVec.getElem_extractLsb']; grind

/-! ## A word and its parts -/

@[simp] theorem wordOfBytes_bytes (w : Word) : wordOfBytes (byte1 w) (byte2 w) = w := by
  simp only [wordOfBytes, byte1, byte2]; ext i hi; simp; grind

theorem wordNibbles_fields (w : Word) : wordNibbles (opField w) (aField w) (bField w) (cField w) = w := by
  simp only [wordNibbles, opField, aField, bField, cField]; ext i hi; simp; grind

theorem xyField_eq (w : Word) : xyField w = bField w ++ cField w := by
  simp only [xyField, bField, cField]; ext i hi; simp [BitVec.getElem_extractLsb']; grind

theorem wordRXY_eq (op : Opcode) (r : Reg) (b c : Nibble) :
    wordRXY op r (b ++ c) = wordNibbles op.nibble (nibbleOfReg r) b c := by
  simp only [wordRXY, wordNibbles]; ext i hi; simp; grind

/-- Masking a word masks its nibbles. -/
theorem wordNibbles_and (op a b c op' a' b' c' : Nibble) :
    wordNibbles op a b c &&& wordNibbles op' a' b' c' =
      wordNibbles (op &&& op') (a &&& a') (b &&& b') (c &&& c') := by
  simp only [wordNibbles]; ext i hi; simp; grind

theorem wordNibbles_and_first (op b c : Nibble) : wordNibbles op 0x0#4 b c &&& 0x0F00#16 = 0#16 := by
  rw [show (0x0F00#16) = wordNibbles 0x0#4 0xF#4 0x0#4 0x0#4 by decide, wordNibbles_and]; simp; decide

theorem wordNibbles_and_second (op a c : Nibble) : wordNibbles op a 0x0#4 c &&& 0x00F0#16 = 0#16 := by
  rw [show (0x00F0#16) = wordNibbles 0x0#4 0x0#4 0xF#4 0x0#4 by decide, wordNibbles_and]; simp; decide

/-! ## Ignored bits (R82, R87) -/

theorem ignoredBits_wordRXY (op : Opcode) (r : Reg) (xy : Byte) :
    ignoredBits (wordRXY op r xy) = op.format.ignoredBits := by
  rw [ignoredBits, opField_wordRXY, opcodeMap_nibble]

theorem ignoredBits_wordNibbles (op : Opcode) (a b c : Nibble) :
    ignoredBits (wordNibbles op.nibble a b c) = op.format.ignoredBits := by
  rw [ignoredBits, opField_wordNibbles, opcodeMap_nibble]

theorem wordRXY_ignored {op : Opcode} (r : Reg) (xy : Byte) (h : op.format = .rxy) :
    wordRXY op r xy &&& ignoredBits (wordRXY op r xy) = 0#16 := by
  rw [ignoredBits_wordRXY, h]; exact BitVec.and_zero

theorem wordNibbles_ignored_rst {op : Opcode} (a b c : Nibble) (h : op.format = .rst) :
    wordNibbles op.nibble a b c &&& ignoredBits (wordNibbles op.nibble a b c) = 0#16 := by
  rw [ignoredBits_wordNibbles, h]; exact BitVec.and_zero

theorem wordNibbles_ignored_zrs {op : Opcode} (b c : Nibble) (h : op.format = .zrs) :
    wordNibbles op.nibble 0x0#4 b c &&& ignoredBits (wordNibbles op.nibble 0x0#4 b c) = 0#16 := by
  rw [ignoredBits_wordNibbles, h]; exact wordNibbles_and_first _ _ _

theorem wordNibbles_ignored_r0n {op : Opcode} (a c : Nibble) (h : op.format = .r0n) :
    wordNibbles op.nibble a 0x0#4 c &&& ignoredBits (wordNibbles op.nibble a 0x0#4 c) = 0#16 := by
  rw [ignoredBits_wordNibbles, h]; exact wordNibbles_and_second _ _ _

end Sys2Proof
end

