-- ==== Sys2Proof/Laws/Memory.lean ====
section
/-! SUPPORT. The memory's laws: what a read gives after a write, and that a write keeps the canonical form. None needs
the canonical form of the memory it starts from. -/

namespace Sys2Proof.Machine

/-! ## Reading -/

@[simp] theorem Memory.get_nil (a : Nat) : Memory.get [] a = Config.unlistedByte := rfl

theorem Memory.get_cons (k : Nat) (v : Byte) (m : Memory) (a : Nat) :
    Memory.get ((k, v) :: m) a = if k = a then v else Memory.get m a := rfl

theorem Memory.get_erase (m : Memory) (a b : Nat) :
    Memory.get (Memory.erase m a) b = if b = a then Config.unlistedByte else Memory.get m b := by
  induction m with
  | nil => simp [Memory.erase]
  | cons cell m ih =>
    obtain ⟨k, v⟩ := cell
    simp only [Memory.erase]
    split <;> simp only [Memory.get_cons, ih] <;> grind

theorem Memory.get_insert (m : Memory) (a : Nat) (v : Byte) (b : Nat) (h : ∀ cell ∈ m, cell.1 ≠ a) :
    Memory.get (Memory.insert m a v) b = if b = a then v else Memory.get m b := by
  induction m with
  | nil => simp only [Memory.insert, Memory.get_cons, Memory.get_nil, eq_comm]
  | cons cell m ih =>
    obtain ⟨k, w⟩ := cell
    have hk : k ≠ a := h (k, w) (by simp)
    have ih := ih (fun c hc => h c (by simp [hc]))
    simp only [Memory.insert]
    split <;> simp only [Memory.get_cons, ih] <;> grind

theorem Memory.ne_of_mem_erase (m : Memory) (a : Nat) : ∀ cell ∈ Memory.erase m a, cell.1 ≠ a := by
  induction m with
  | nil => simp [Memory.erase]
  | cons cell m ih =>
    obtain ⟨k, v⟩ := cell
    simp only [Memory.erase]
    split
    · exact ih
    · rename_i hk
      intro c hc
      rcases List.mem_cons.mp hc with rfl | hc
      · exact hk
      · exact ih c hc

/-- A read after a write: the value written at the address written, what was there everywhere else. -/
theorem Memory.get_set (m : Memory) (a : Nat) (v : Byte) (b : Nat) :
    Memory.get (Memory.set m a v) b = if b = a then v else Memory.get m b := by
  unfold Memory.set
  split
  · rename_i h; rw [Memory.get_erase, h]
  · rw [Memory.get_insert _ _ _ _ (Memory.ne_of_mem_erase m a), Memory.get_erase]; split <;> rfl

/-! ## The canonical form -/

theorem Memory.rising_mono {lo lo' : Option Nat} {m : Memory} (h : Memory.risingFrom lo m = true)
    (hlo : ∀ k, lo.all (· < k) = true → lo'.all (· < k) = true) : Memory.risingFrom lo' m = true := by
  cases m with
  | nil => rfl
  | cons cell m =>
    obtain ⟨k, v⟩ := cell
    simp only [Memory.risingFrom, Bool.and_eq_true] at h ⊢
    exact ⟨hlo k h.1, h.2⟩

theorem Memory.rising_erase (m : Memory) (a : Nat) (lo : Option Nat) (h : Memory.risingFrom lo m = true) :
    Memory.risingFrom lo (Memory.erase m a) = true := by
  induction m generalizing lo with
  | nil => exact h
  | cons cell m ih =>
    obtain ⟨k, v⟩ := cell
    simp only [Memory.risingFrom, Bool.and_eq_true] at h
    simp only [Memory.erase]
    split
    · refine ih lo (Memory.rising_mono h.2 fun j hj => ?_)
      cases lo with
      | none => rfl
      | some l => simp at h hj ⊢; omega
    · simp only [Memory.risingFrom, Bool.and_eq_true]; exact ⟨h.1, ih _ h.2⟩

theorem Memory.rising_insert (m : Memory) (a : Nat) (v : Byte) (lo : Option Nat) (h : Memory.risingFrom lo m = true)
    (hlo : lo.all (· < a) = true) (ha : ∀ cell ∈ m, cell.1 ≠ a) :
    Memory.risingFrom lo (Memory.insert m a v) = true := by
  induction m generalizing lo with
  | nil => simpa [Memory.insert, Memory.risingFrom] using hlo
  | cons cell m ih =>
    obtain ⟨k, w⟩ := cell
    have hk : k ≠ a := ha (k, w) (by simp)
    simp only [Memory.risingFrom, Bool.and_eq_true] at h
    simp only [Memory.insert]
    split
    · rename_i hlt
      simp only [Memory.risingFrom, Bool.and_eq_true]
      exact ⟨hlo, by simpa using hlt, h.2⟩
    · simp only [Memory.risingFrom, Bool.and_eq_true]
      exact ⟨h.1, ih _ h.2 (by simp; omega) (fun c hc => ha c (by simp [hc]))⟩

theorem Memory.mem_of_mem_erase {m : Memory} {a : Nat} {cell : Host.Cell} (h : cell ∈ Memory.erase m a) : cell ∈ m := by
  induction m with
  | nil => exact h
  | cons c m ih =>
    obtain ⟨k, v⟩ := c
    simp only [Memory.erase] at h
    split at h
    · exact List.mem_cons_of_mem _ (ih h)
    · rcases List.mem_cons.mp h with rfl | h
      · exact List.mem_cons_self
      · exact List.mem_cons_of_mem _ (ih h)

theorem Memory.mem_of_mem_insert {m : Memory} {a : Nat} {v : Byte} {cell : Host.Cell}
    (h : cell ∈ Memory.insert m a v) : cell = (a, v) ∨ cell ∈ m := by
  induction m with
  | nil => simpa [Memory.insert] using h
  | cons c m ih =>
    obtain ⟨k, w⟩ := c
    simp only [Memory.insert] at h
    split at h
    · simpa using h
    · rcases List.mem_cons.mp h with rfl | h
      · simp
      · rcases ih h with h | h <;> simp [h]

theorem Memory.wf_iff (m : Memory) : Memory.wf m = true ↔
    Memory.risingFrom none m = true ∧ ∀ cell ∈ m, cell.1 < 256 ∧ cell.2 ≠ Config.unlistedByte := by
  simp [Memory.wf]

/-- A write to one of the 256 cells keeps the canonical form. -/
theorem Memory.wf_set (m : Memory) (a : Nat) (v : Byte) (ha : a < 256) (h : Memory.wf m = true) :
    Memory.wf (Memory.set m a v) = true := by
  rw [Memory.wf_iff] at h ⊢
  unfold Memory.set
  split
  · exact ⟨Memory.rising_erase m a none h.1, fun c hc => h.2 c (Memory.mem_of_mem_erase hc)⟩
  · rename_i hv
    refine ⟨Memory.rising_insert _ a v none (Memory.rising_erase m a none h.1) rfl (Memory.ne_of_mem_erase m a), ?_⟩
    intro c hc
    rcases Memory.mem_of_mem_insert hc with rfl | hc
    · exact ⟨ha, hv⟩
    · exact h.2 c (Memory.mem_of_mem_erase hc)

end Sys2Proof.Machine
end

