-- ==== Sys2Proof/Laws/State.lean ====
section
/-! SUPPORT. One lemma per field of `State` and per update of it, true by definition, so that no proof unfolds a record
update. -/

namespace Sys2Proof.Machine

variable (s : State)


/-! ## `State.emit` -/

@[simp] theorem State.emit_regs (e : Event) : (s.emit e).regs = s.regs := rfl
@[simp] theorem State.emit_pc (e : Event) : (s.emit e).pc = s.pc := rfl
@[simp] theorem State.emit_ir (e : Event) : (s.emit e).ir = s.ir := rfl
@[simp] theorem State.emit_mem (e : Event) : (s.emit e).mem = s.mem := rfl
@[simp] theorem State.emit_mode (e : Event) : (s.emit e).mode = s.mode := rfl
@[simp] theorem State.emit_stopRequested (e : Event) : (s.emit e).stopRequested = s.stopRequested := rfl
@[simp] theorem State.emit_halted (e : Event) : (s.emit e).halted = s.halted := rfl
@[simp] theorem State.emit_refused (e : Event) : (s.emit e).refused = s.refused := rfl
@[simp] theorem State.emit_events (e : Event) : (s.emit e).events = s.events ++ [e] := rfl
@[simp] theorem State.emit_hostScript (e : Event) : (s.emit e).hostScript = s.hostScript := rfl

/-! ## `State.writeReg` -/

@[simp] theorem State.writeReg_regs (i : Reg) (v : Byte) : (s.writeReg i v).regs = s.regs.set i.val v i.isLt := rfl
@[simp] theorem State.writeReg_pc (i : Reg) (v : Byte) : (s.writeReg i v).pc = s.pc := rfl
@[simp] theorem State.writeReg_ir (i : Reg) (v : Byte) : (s.writeReg i v).ir = s.ir := rfl
@[simp] theorem State.writeReg_mem (i : Reg) (v : Byte) : (s.writeReg i v).mem = s.mem := rfl
@[simp] theorem State.writeReg_mode (i : Reg) (v : Byte) : (s.writeReg i v).mode = s.mode := rfl
@[simp] theorem State.writeReg_stopRequested (i : Reg) (v : Byte) : (s.writeReg i v).stopRequested = s.stopRequested := rfl
@[simp] theorem State.writeReg_halted (i : Reg) (v : Byte) : (s.writeReg i v).halted = s.halted := rfl
@[simp] theorem State.writeReg_refused (i : Reg) (v : Byte) : (s.writeReg i v).refused = s.refused := rfl
@[simp] theorem State.writeReg_events (i : Reg) (v : Byte) : (s.writeReg i v).events = s.events ++ [.regChanged i v] := rfl
@[simp] theorem State.writeReg_hostScript (i : Reg) (v : Byte) : (s.writeReg i v).hostScript = s.hostScript := rfl

/-! ## `State.writeMem` -/

@[simp] theorem State.writeMem_regs (a v : Byte) : (s.writeMem a v).regs = s.regs := rfl
@[simp] theorem State.writeMem_pc (a v : Byte) : (s.writeMem a v).pc = s.pc := rfl
@[simp] theorem State.writeMem_ir (a v : Byte) : (s.writeMem a v).ir = s.ir := rfl
@[simp] theorem State.writeMem_mem (a v : Byte) : (s.writeMem a v).mem = Memory.set s.mem a.toNat v := rfl
@[simp] theorem State.writeMem_mode (a v : Byte) : (s.writeMem a v).mode = s.mode := rfl
@[simp] theorem State.writeMem_stopRequested (a v : Byte) : (s.writeMem a v).stopRequested = s.stopRequested := rfl
@[simp] theorem State.writeMem_halted (a v : Byte) : (s.writeMem a v).halted = s.halted := rfl
@[simp] theorem State.writeMem_refused (a v : Byte) : (s.writeMem a v).refused = s.refused := rfl
@[simp] theorem State.writeMem_events (a v : Byte) : (s.writeMem a v).events = s.events ++ [.memChanged a v] := rfl
@[simp] theorem State.writeMem_hostScript (a v : Byte) : (s.writeMem a v).hostScript = s.hostScript := rfl

/-! ## `State.writePc` -/

@[simp] theorem State.writePc_regs (v : Byte) : (s.writePc v).regs = s.regs := rfl
@[simp] theorem State.writePc_pc (v : Byte) : (s.writePc v).pc = v := rfl
@[simp] theorem State.writePc_ir (v : Byte) : (s.writePc v).ir = s.ir := rfl
@[simp] theorem State.writePc_mem (v : Byte) : (s.writePc v).mem = s.mem := rfl
@[simp] theorem State.writePc_mode (v : Byte) : (s.writePc v).mode = s.mode := rfl
@[simp] theorem State.writePc_stopRequested (v : Byte) : (s.writePc v).stopRequested = s.stopRequested := rfl
@[simp] theorem State.writePc_halted (v : Byte) : (s.writePc v).halted = s.halted := rfl
@[simp] theorem State.writePc_refused (v : Byte) : (s.writePc v).refused = s.refused := rfl
@[simp] theorem State.writePc_events (v : Byte) : (s.writePc v).events = s.events ++ [.pcChanged v] := rfl
@[simp] theorem State.writePc_hostScript (v : Byte) : (s.writePc v).hostScript = s.hostScript := rfl

/-! ## `State.writeIr` -/

@[simp] theorem State.writeIr_regs (w : Word) : (s.writeIr w).regs = s.regs := rfl
@[simp] theorem State.writeIr_pc (w : Word) : (s.writeIr w).pc = s.pc := rfl
@[simp] theorem State.writeIr_ir (w : Word) : (s.writeIr w).ir = w := rfl
@[simp] theorem State.writeIr_mem (w : Word) : (s.writeIr w).mem = s.mem := rfl
@[simp] theorem State.writeIr_mode (w : Word) : (s.writeIr w).mode = s.mode := rfl
@[simp] theorem State.writeIr_stopRequested (w : Word) : (s.writeIr w).stopRequested = s.stopRequested := rfl
@[simp] theorem State.writeIr_halted (w : Word) : (s.writeIr w).halted = s.halted := rfl
@[simp] theorem State.writeIr_refused (w : Word) : (s.writeIr w).refused = s.refused := rfl
@[simp] theorem State.writeIr_events (w : Word) : (s.writeIr w).events = s.events ++ [.irChanged w] := rfl
@[simp] theorem State.writeIr_hostScript (w : Word) : (s.writeIr w).hostScript = s.hostScript := rfl

/-! ## `State.halt` -/

@[simp] theorem State.halt_regs : s.halt.regs = s.regs := rfl
@[simp] theorem State.halt_pc : s.halt.pc = s.pc := rfl
@[simp] theorem State.halt_ir : s.halt.ir = s.ir := rfl
@[simp] theorem State.halt_mem : s.halt.mem = s.mem := rfl
@[simp] theorem State.halt_mode : s.halt.mode = .idle := rfl
@[simp] theorem State.halt_stopRequested : s.halt.stopRequested = s.stopRequested := rfl
@[simp] theorem State.halt_halted : s.halt.halted = true := rfl
@[simp] theorem State.halt_refused : s.halt.refused = s.refused := rfl
@[simp] theorem State.halt_events : s.halt.events = s.events := rfl
@[simp] theorem State.halt_hostScript : s.halt.hostScript = s.hostScript := rfl

/-! ## `State.refuse` -/

@[simp] theorem State.refuse_regs : s.refuse.regs = s.regs := rfl
@[simp] theorem State.refuse_pc : s.refuse.pc = s.pc := rfl
@[simp] theorem State.refuse_ir : s.refuse.ir = s.ir := rfl
@[simp] theorem State.refuse_mem : s.refuse.mem = s.mem := rfl
@[simp] theorem State.refuse_mode : s.refuse.mode = .idle := rfl
@[simp] theorem State.refuse_stopRequested : s.refuse.stopRequested = s.stopRequested := rfl
@[simp] theorem State.refuse_halted : s.refuse.halted = s.halted := rfl
@[simp] theorem State.refuse_refused : s.refuse.refused = true := rfl
@[simp] theorem State.refuse_events : s.refuse.events = s.events := rfl
@[simp] theorem State.refuse_hostScript : s.refuse.hostScript = s.hostScript := rfl

/-! ## `requestStop` -/

@[simp] theorem requestStop_regs : (requestStop s).regs = s.regs := rfl
@[simp] theorem requestStop_pc : (requestStop s).pc = s.pc := rfl
@[simp] theorem requestStop_ir : (requestStop s).ir = s.ir := rfl
@[simp] theorem requestStop_mem : (requestStop s).mem = s.mem := rfl
@[simp] theorem requestStop_mode : (requestStop s).mode = s.mode := rfl
@[simp] theorem requestStop_stopRequested : (requestStop s).stopRequested = true := rfl
@[simp] theorem requestStop_halted : (requestStop s).halted = s.halted := rfl
@[simp] theorem requestStop_refused : (requestStop s).refused = s.refused := rfl
@[simp] theorem requestStop_events : (requestStop s).events = s.events := rfl
@[simp] theorem requestStop_hostScript : (requestStop s).hostScript = s.hostScript := rfl

/-! ## `startRun` -/

@[simp] theorem startRun_regs : (startRun s).regs = s.regs := rfl
@[simp] theorem startRun_pc : (startRun s).pc = s.pc := rfl
@[simp] theorem startRun_ir : (startRun s).ir = s.ir := rfl
@[simp] theorem startRun_mem : (startRun s).mem = s.mem := rfl
@[simp] theorem startRun_mode : (startRun s).mode = .running := rfl
@[simp] theorem startRun_stopRequested : (startRun s).stopRequested = false := rfl
@[simp] theorem startRun_halted : (startRun s).halted = false := rfl
@[simp] theorem startRun_refused : (startRun s).refused = s.refused := rfl
@[simp] theorem startRun_events : (startRun s).events = s.events := rfl
@[simp] theorem startRun_hostScript : (startRun s).hostScript = s.hostScript := rfl

/-! ## `endRun` -/

@[simp] theorem endRun_regs : (endRun s).regs = s.regs := rfl
@[simp] theorem endRun_pc : (endRun s).pc = s.pc := rfl
@[simp] theorem endRun_ir : (endRun s).ir = s.ir := rfl
@[simp] theorem endRun_mem : (endRun s).mem = s.mem := rfl
@[simp] theorem endRun_mode : (endRun s).mode = .idle := rfl
@[simp] theorem endRun_stopRequested : (endRun s).stopRequested = s.stopRequested := rfl
@[simp] theorem endRun_halted : (endRun s).halted = s.halted := rfl
@[simp] theorem endRun_refused : (endRun s).refused = s.refused := rfl
@[simp] theorem endRun_events : (endRun s).events = s.events := rfl
@[simp] theorem endRun_hostScript : (endRun s).hostScript = s.hostScript := rfl

/-! ## `beginSingleStep` -/

@[simp] theorem beginSingleStep_regs : (beginSingleStep s).regs = s.regs := rfl
@[simp] theorem beginSingleStep_pc : (beginSingleStep s).pc = s.pc := rfl
@[simp] theorem beginSingleStep_ir : (beginSingleStep s).ir = s.ir := rfl
@[simp] theorem beginSingleStep_mem : (beginSingleStep s).mem = s.mem := rfl
@[simp] theorem beginSingleStep_mode : (beginSingleStep s).mode = .running := rfl
@[simp] theorem beginSingleStep_stopRequested : (beginSingleStep s).stopRequested = s.stopRequested := rfl
@[simp] theorem beginSingleStep_halted : (beginSingleStep s).halted = false := rfl
@[simp] theorem beginSingleStep_refused : (beginSingleStep s).refused = s.refused := rfl
@[simp] theorem beginSingleStep_events : (beginSingleStep s).events = s.events := rfl
@[simp] theorem beginSingleStep_hostScript : (beginSingleStep s).hostScript = s.hostScript := rfl

/-! ## `endSingleStep` -/

@[simp] theorem endSingleStep_regs (stopArrives : Bool) : (endSingleStep stopArrives s).regs = s.regs := rfl
@[simp] theorem endSingleStep_pc (stopArrives : Bool) : (endSingleStep stopArrives s).pc = s.pc := rfl
@[simp] theorem endSingleStep_ir (stopArrives : Bool) : (endSingleStep stopArrives s).ir = s.ir := rfl
@[simp] theorem endSingleStep_mem (stopArrives : Bool) : (endSingleStep stopArrives s).mem = s.mem := rfl
@[simp] theorem endSingleStep_mode (stopArrives : Bool) : (endSingleStep stopArrives s).mode = .idle := rfl
@[simp] theorem endSingleStep_stopRequested (stopArrives : Bool) : (endSingleStep stopArrives s).stopRequested = (s.stopRequested || stopArrives) := rfl
@[simp] theorem endSingleStep_halted (stopArrives : Bool) : (endSingleStep stopArrives s).halted = s.halted := rfl
@[simp] theorem endSingleStep_refused (stopArrives : Bool) : (endSingleStep stopArrives s).refused = s.refused := rfl
@[simp] theorem endSingleStep_events (stopArrives : Bool) : (endSingleStep stopArrives s).events = s.events := rfl
@[simp] theorem endSingleStep_hostScript (stopArrives : Bool) : (endSingleStep stopArrives s).hostScript = s.hostScript := rfl

/-! ## `beginTransition` -/

@[simp] theorem beginTransition_regs : (beginTransition s).regs = s.regs := rfl
@[simp] theorem beginTransition_pc : (beginTransition s).pc = s.pc := rfl
@[simp] theorem beginTransition_ir : (beginTransition s).ir = s.ir := rfl
@[simp] theorem beginTransition_mem : (beginTransition s).mem = s.mem := rfl
@[simp] theorem beginTransition_mode : (beginTransition s).mode = s.mode := rfl
@[simp] theorem beginTransition_stopRequested : (beginTransition s).stopRequested = s.stopRequested := rfl
@[simp] theorem beginTransition_halted : (beginTransition s).halted = s.halted := rfl
@[simp] theorem beginTransition_refused : (beginTransition s).refused = s.refused := rfl
@[simp] theorem beginTransition_events : (beginTransition s).events = [] := rfl
@[simp] theorem beginTransition_hostScript : (beginTransition s).hostScript = s.hostScript.tail := rfl

/-! ## `fetch` -/

@[simp] theorem fetch_regs : (fetch s).regs = s.regs := rfl
@[simp] theorem fetch_pc : (fetch s).pc = s.pc + 2#8 := rfl
@[simp] theorem fetch_ir : (fetch s).ir = s.fetchWord := rfl
@[simp] theorem fetch_mem : (fetch s).mem = s.mem := rfl
@[simp] theorem fetch_mode : (fetch s).mode = s.mode := rfl
@[simp] theorem fetch_stopRequested : (fetch s).stopRequested = s.stopRequested := rfl
@[simp] theorem fetch_halted : (fetch s).halted = s.halted := rfl
@[simp] theorem fetch_refused : (fetch s).refused = s.refused := rfl
@[simp] theorem fetch_events :
    (fetch s).events = s.events ++ [.irChanged s.fetchWord] ++ [.pcChanged (s.pc + 2#8)] := rfl
@[simp] theorem fetch_hostScript : (fetch s).hostScript = s.hostScript := rfl

end Sys2Proof.Machine
end

