-- ==== Sys2Proof/Laws/Ops.lean ====
section
/-! SUPPORT. What a register or a cell reads as after each shared operation, and what a sequence of stores leaves. -/

namespace Sys2Proof.Machine

variable (s : State)

/-! ## Reads after one write -/

@[simp] theorem readReg_writeReg (i q : Reg) (v : Byte) :
    (s.writeReg i v).readReg q = if q = i then v else s.readReg q := by
  simp [State.readReg, State.writeReg, State.emit, Vector.get_eq_getElem, Vector.getElem_set, Fin.ext_iff, eq_comm]

@[simp] theorem readMem_writeMem (a b v : Byte) :
    (s.writeMem a v).readMem b = if b = a then v else s.readMem b := by
  simp only [State.readMem, State.writeMem_mem, Memory.get_set, BitVec.toNat_inj]

theorem readReg_congr {s t : State} (h : t.regs = s.regs) (q : Reg) : t.readReg q = s.readReg q := by
  rw [State.readReg, State.readReg, h]

theorem readMem_congr {s t : State} (h : t.mem = s.mem) (a : Byte) : t.readMem a = s.readMem a := by
  rw [State.readMem, State.readMem, h]

@[simp] theorem readReg_emit (e : Event) (q : Reg) : (s.emit e).readReg q = s.readReg q := rfl
@[simp] theorem readMem_emit (e : Event) (a : Byte) : (s.emit e).readMem a = s.readMem a := rfl
@[simp] theorem readMem_writeReg (i : Reg) (v a : Byte) : (s.writeReg i v).readMem a = s.readMem a := rfl
@[simp] theorem readReg_writeMem (a v : Byte) (q : Reg) : (s.writeMem a v).readReg q = s.readReg q := rfl
@[simp] theorem readReg_writePc (v : Byte) (q : Reg) : (s.writePc v).readReg q = s.readReg q := rfl
@[simp] theorem readMem_writePc (v a : Byte) : (s.writePc v).readMem a = s.readMem a := rfl
@[simp] theorem readReg_writeIr (w : Word) (q : Reg) : (s.writeIr w).readReg q = s.readReg q := rfl
@[simp] theorem readMem_writeIr (w : Word) (a : Byte) : (s.writeIr w).readMem a = s.readMem a := rfl
@[simp] theorem readReg_halt (q : Reg) : s.halt.readReg q = s.readReg q := rfl
@[simp] theorem readMem_halt (a : Byte) : s.halt.readMem a = s.readMem a := rfl
@[simp] theorem readReg_refuse (q : Reg) : s.refuse.readReg q = s.readReg q := rfl
@[simp] theorem readMem_refuse (a : Byte) : s.refuse.readMem a = s.readMem a := rfl
@[simp] theorem readReg_fetch (q : Reg) : (fetch s).readReg q = s.readReg q := rfl
@[simp] theorem readMem_fetch (a : Byte) : (fetch s).readMem a = s.readMem a := rfl
@[simp] theorem readReg_beginTransition (q : Reg) : (beginTransition s).readReg q = s.readReg q := rfl
@[simp] theorem readMem_beginTransition (a : Byte) : (beginTransition s).readMem a = s.readMem a := rfl

/-! ## The canonical form of memory -/

theorem writeMem_mem_wf (a v : Byte) (h : s.mem.wf = true) : (s.writeMem a v).mem.wf = true :=
  Memory.wf_set s.mem a.toNat v a.isLt h

/-! ## A sequence of memory writes -/

/-- Writing a list of bytes from `n` on: each lands in its cell, modulo 256; a cell none of them lands in is kept. -/
theorem writeBytesFrom_readMem (n : Nat) (bytes : List Byte) (s : State) (h : n + bytes.length ≤ 256) (b : Byte) :
    (writeBytesFrom n bytes s).readMem b =
      if n ≤ b.toNat then (bytes[b.toNat - n]?).getD (s.readMem b) else s.readMem b := by
  induction bytes generalizing n s with
  | nil => simp [writeBytesFrom]
  | cons v bytes ih =>
    have hlen : n + 1 + bytes.length ≤ 256 := by simp at h; omega
    rw [writeBytesFrom, ih (n + 1) _ hlen, readMem_writeMem]
    have hn : (BitVec.ofNat 8 n).toNat = n := by simp; omega
    have hb : b = BitVec.ofNat 8 n ↔ b.toNat = n := by
      rw [← BitVec.toNat_inj, hn]
    simp only [hb]
    by_cases h1 : b.toNat = n
    · simp [h1]
    · by_cases h2 : n + 1 ≤ b.toNat
      · have h3 : b.toNat - n = (b.toNat - (n + 1)) + 1 := by omega
        simp [h1, h2, h3, show n ≤ b.toNat by omega]
      · simp [h1, h2, show ¬ n ≤ b.toNat by omega]

/-- The events of a list of bytes written from `n` on. -/
def writeBytesEvents : Nat → List Byte → List Event
  | _, [] => []
  | n, v :: bytes => .memChanged (BitVec.ofNat 8 n) v :: writeBytesEvents (n + 1) bytes

/-- Writing bytes changes memory and adds its events, and nothing else. -/
theorem writeBytesFrom_frame (n : Nat) (bytes : List Byte) (s : State) :
    writeBytesFrom n bytes s =
      { s with mem := (writeBytesFrom n bytes s).mem, events := s.events ++ writeBytesEvents n bytes } := by
  induction bytes generalizing n s with
  | nil => simp [writeBytesFrom, writeBytesEvents]
  | cons v bytes ih => rw [writeBytesFrom, ih]; simp [State.writeMem, State.emit, writeBytesEvents]

theorem writeBytesFrom_mem_wf (n : Nat) (bytes : List Byte) (s : State) (h : s.mem.wf = true) :
    (writeBytesFrom n bytes s).mem.wf = true := by
  induction bytes generalizing n s with
  | nil => exact h
  | cons v bytes ih => exact ih _ _ (writeMem_mem_wf s _ v h)

end Sys2Proof.Machine
end

