-- ==== Sys2Proof/Laws/Exec.lean ====
section
/-! SUPPORT. What an executed instruction can have done, said once: later proofs cite `exec_inv` and do not unfold
`exec`. -/

namespace Sys2Proof.Machine

/-- A branch either overwrites `pc` with its target or changes nothing. -/
theorem branchIf_cases (taken : Bool) (xy : Byte) (s : State) :
    (taken = true ∧ branchIf taken xy s = s.writePc xy) ∨ (taken = false ∧ branchIf taken xy s = s) := by
  cases taken <;> simp [branchIf, branchTarget]

/-- Everything an executed instruction can do: write its one register, store to its one cell, take a branch, change
nothing (a branch not taken), halt, or refuse. -/
theorem exec_inv {i : Instr} {s t : State} (h : exec i s = .next t) :
    (∃ r v, destReg i = some r ∧ storeAddr i s = none ∧ t = s.writeReg r v) ∨
    (∃ a v, destReg i = none ∧ storeAddr i s = some a ∧ t = s.writeMem a v) ∨
    (∃ r xy, i = .jumpEqual r xy ∧
      ((s.readReg r = s.readReg 0 ∧ t = s.writePc xy) ∨ (s.readReg r ≠ s.readReg 0 ∧ t = s))) ∨
    (∃ r xy, i = .jumpLessEqual r xy ∧
      ((leCondition (s.readReg r) (s.readReg 0) = true ∧ t = s.writePc xy) ∨
       (leCondition (s.readReg r) (s.readReg 0) = false ∧ t = s))) ∨
    (i = .halt ∧ t = s.halt) ∨ (i = .unassignedOpcode0 ∧ t = s.refuse) := by
  cases i with
  | directLoad r xy => cases h; exact .inl ⟨r, _, rfl, rfl, rfl⟩
  | immediateLoad r xy => cases h; exact .inl ⟨r, _, rfl, rfl, rfl⟩
  | directStore r xy => cases h; exact .inr (.inl ⟨_, _, rfl, rfl, rfl⟩)
  | move src dst => cases h; exact .inl ⟨dst, _, rfl, rfl, rfl⟩
  | integerAdd d sr tr => cases h; exact .inl ⟨d, _, rfl, rfl, rfl⟩
  | floatingPointAdd d sr tr => cases h; exact .inl ⟨d, _, rfl, rfl, rfl⟩
  | or d sr tr => cases h; exact .inl ⟨d, _, rfl, rfl, rfl⟩
  | and d sr tr => cases h; exact .inl ⟨d, _, rfl, rfl, rfl⟩
  | xor d sr tr => cases h; exact .inl ⟨d, _, rfl, rfl, rfl⟩
  | ror r n => cases h; exact .inl ⟨r, _, rfl, rfl, rfl⟩
  | jumpEqual r xy =>
    cases h
    refine .inr (.inr (.inl ⟨r, xy, rfl, ?_⟩))
    rcases branchIf_cases (eqCondition (regOperand s r) (branchReference s)) xy s with ⟨hc, hb⟩ | ⟨hc, hb⟩
    · exact .inl ⟨of_decide_eq_true hc, hb⟩
    · exact .inr ⟨of_decide_eq_false hc, hb⟩
  | halt => cases h; exact .inr (.inr (.inr (.inr (.inl ⟨rfl, rfl⟩))))
  | indirectLoad b c => cases h; exact .inl ⟨b, _, rfl, rfl, rfl⟩
  | indirectStore b c => cases h; exact .inr (.inl ⟨_, _, rfl, rfl, rfl⟩)
  | jumpLessEqual r xy =>
    cases h
    exact .inr (.inr (.inr (.inl ⟨r, xy, rfl, branchIf_cases _ xy s⟩)))
  | unassignedOpcode0 => cases h; exact .inr (.inr (.inr (.inr (.inr ⟨rfl, rfl⟩))))

/-! ## The three things an instruction may write: at most one of them, read from the registers alone -/

variable {i : Instr} {s t : State}

theorem storeAddr_congr (h : t.regs = s.regs) : storeAddr i t = storeAddr i s := by
  cases i <;> simp only [storeAddr, indirectAddr, regOperand, State.readReg, h]

theorem takenTarget_congr (h : t.regs = s.regs) : takenTarget i t = takenTarget i s := by
  have hr : ∀ r, t.readReg r = s.readReg r := fun r => by rw [State.readReg, State.readReg, h]
  cases i with
  | jumpEqual r xy => rw [takenTarget, takenTarget, hr, hr]
  | jumpLessEqual r xy => rw [takenTarget, takenTarget, hr, hr]
  | _ => rfl

theorem storeAddr_eq_none_of_destReg {r : Reg} (h : destReg i = some r) : storeAddr i s = none := by
  cases i <;> first | rfl | cases h

theorem takenTarget_eq_none_of_destReg {r : Reg} (h : destReg i = some r) : takenTarget i s = none := by
  cases i <;> first | rfl | cases h

theorem takenTarget_eq_none_of_storeAddr {a : Byte} (h : storeAddr i s = some a) : takenTarget i s = none := by
  cases i <;> first | rfl | cases h

/-- The branch condition of JumpLessEqual is the unsigned order. -/
theorem leCondition_iff (p q : Byte) : leCondition p q = true ↔ p.toNat ≤ q.toNat := by
  simp [leCondition, jmpleSigned]

end Sys2Proof.Machine
end

