-- ==== Sys2Proof/Laws/Host.lean ====
section
/-! SUPPORT. What each host control of Machine/HostControl.lean leaves: its reads, and everything it does not touch. -/

namespace Sys2Proof.Machine

variable (s : State)

@[simp] theorem hostClearRegisters_readReg (q : Reg) : (hostClearRegisters s).readReg q = 0x00#8 := by
  simp [hostClearRegisters, State.readReg, Vector.get_eq_getElem]

/-- What a filled memory's rows read as, from any first row on. -/
theorem Memory.get_rows (n : Nat) (v : Byte) (f : Nat → Nat) (hf : ∀ a b, f a = f b → a = b) (b : Nat) (hb : b < n) :
    Memory.get ((List.range n).map (fun a => (f a, v))) (f b) = v := by
  induction n generalizing f b with
  | zero => omega
  | succ n ih =>
    rw [List.range_succ_eq_map, List.map_cons, Memory.get_cons]
    split
    · rfl
    · rename_i hne
      cases b with
      | zero => exact absurd rfl hne
      | succ b =>
        have := ih (f ∘ Nat.succ) (fun a c h => Nat.succ.inj (hf _ _ h)) b (by omega)
        simpa [List.map_map, Function.comp_def] using this

/-- Every one of the 256 cells of a filled memory reads as the byte it is filled with. -/
theorem Memory.get_fill (v : Byte) (a : Nat) (ha : a < 256) : Memory.get (Memory.fill v) a = v := by
  unfold Memory.fill
  split
  · rename_i h; rw [Memory.get_nil, h]
  · exact Memory.get_rows 256 v id (fun _ _ h => h) a ha

@[simp] theorem hostClearMemory_readMem (a : Byte) : (hostClearMemory s).readMem a = 0x00#8 :=
  Memory.get_fill 0x00#8 a.toNat a.isLt

theorem hostClearMemory_mem_wf : (hostClearMemory s).mem.wf = true := rfl

theorem imageBytes_length (image : List (Byte × Byte)) : (imageBytes image).length = 2 * image.length := by
  induction image with
  | nil => rfl
  | cons p image ih => obtain ⟨b1, b2⟩ := p; simp only [imageBytes, List.length_cons, ih]; omega

theorem imageFits_iff (image : List (Byte × Byte)) : imageFits image = true ↔ 2 * image.length ≤ 256 := by
  simp [imageFits, imageBytes_length]

/-- Instruction `k` of an image is its bytes `2k` and `2k + 1`. -/
theorem imageBytes_getElem? (image : List (Byte × Byte)) (k : Nat) (b1 b2 : Byte) (h : image[k]? = some (b1, b2)) :
    (imageBytes image)[2 * k]? = some b1 ∧ (imageBytes image)[2 * k + 1]? = some b2 := by
  induction image generalizing k with
  | nil => simp at h
  | cons p image ih =>
    cases k with
    | zero => simp at h; simp [h, imageBytes]
    | succ k =>
      have := ih k (by simpa using h)
      rw [show 2 * (k + 1) = 2 * k + 1 + 1 by omega]
      simpa [imageBytes] using this

/-- The loader changes memory and adds its events, and nothing else. -/
theorem hostLoad_frame (image : List (Byte × Byte)) : hostLoad image s =
    { s with mem := (hostLoad image s).mem, events := s.events ++ writeBytesEvents 0 (imageBytes image) } :=
  writeBytesFrom_frame _ _ s

theorem hostLoad_mem_wf (image : List (Byte × Byte)) (h : s.mem.wf = true) : (hostLoad image s).mem.wf = true :=
  writeBytesFrom_mem_wf _ _ s h

end Sys2Proof.Machine
end

