-- ==== Sys2Proof/Laws/PerInstr.lean ====
section
/-! SUPPORT. Facts about every instruction as syntax, one lemma per constructor. -/

namespace Sys2Proof.Laws.EncodeIgnoredZero

/-- Every bit that an instruction's format ignores is written as 0 (R82, R98). -/
def Statement (i : Instr) : Prop := encode i &&& ignoredBits (encode i) = 0#16

theorem directLoad (r : Reg) (xy : Byte) : Statement (.directLoad r xy) := wordRXY_ignored r xy rfl
theorem immediateLoad (r : Reg) (xy : Byte) : Statement (.immediateLoad r xy) := wordRXY_ignored r xy rfl
theorem directStore (r : Reg) (xy : Byte) : Statement (.directStore r xy) := wordRXY_ignored r xy rfl
theorem move (src dst : Reg) : Statement (.move src dst) :=
  wordNibbles_ignored_zrs (op := .move) (nibbleOfReg src) (nibbleOfReg dst) rfl
theorem integerAdd (d s t : Reg) : Statement (.integerAdd d s t) :=
  wordNibbles_ignored_rst (op := .integerAdd) (nibbleOfReg d) (nibbleOfReg s) (nibbleOfReg t) rfl
theorem floatingPointAdd (d s t : Reg) : Statement (.floatingPointAdd d s t) :=
  wordNibbles_ignored_rst (op := .floatingPointAdd) (nibbleOfReg d) (nibbleOfReg s) (nibbleOfReg t) rfl
theorem or (d s t : Reg) : Statement (.or d s t) :=
  wordNibbles_ignored_rst (op := .or) (nibbleOfReg d) (nibbleOfReg s) (nibbleOfReg t) rfl
theorem and (d s t : Reg) : Statement (.and d s t) :=
  wordNibbles_ignored_rst (op := .and) (nibbleOfReg d) (nibbleOfReg s) (nibbleOfReg t) rfl
theorem xor (d s t : Reg) : Statement (.xor d s t) :=
  wordNibbles_ignored_rst (op := .xor) (nibbleOfReg d) (nibbleOfReg s) (nibbleOfReg t) rfl
theorem ror (r : Reg) (n : Nat) : Statement (.ror r n) :=
  wordNibbles_ignored_r0n (op := .ror) (nibbleOfReg r) (BitVec.ofNat 4 n) rfl
theorem jumpEqual (r : Reg) (xy : Byte) : Statement (.jumpEqual r xy) := wordRXY_ignored r xy rfl
theorem halt : Statement .halt := rfl
theorem indirectLoad (b c : Reg) : Statement (.indirectLoad b c) :=
  wordNibbles_ignored_zrs (op := .indirectLoad) (nibbleOfReg b) (nibbleOfReg c) rfl
theorem indirectStore (b c : Reg) : Statement (.indirectStore b c) :=
  wordNibbles_ignored_zrs (op := .indirectStore) (nibbleOfReg b) (nibbleOfReg c) rfl
theorem jumpLessEqual (r : Reg) (xy : Byte) : Statement (.jumpLessEqual r xy) := wordRXY_ignored r xy rfl
theorem unassignedOpcode0 : Statement .unassignedOpcode0 := rfl

end Sys2Proof.Laws.EncodeIgnoredZero
end

