-- ==== Sys2Proof/Laws/Step.lean ====
section
/-! SUPPORT. What a transition does in each mode, as equations and inversions that later proofs cite instead of unfolding
`step`. -/

namespace Sys2Proof.Machine

variable {s t : State}

theorem step_of_idle (h : s.mode = .idle) : step s = whileIdle (nextHostAction s) (beginTransition s) := by
  simp [step, transition, h]

theorem step_of_running (h : s.mode = .running) : step s = whileRunning (nextHostAction s) (beginTransition s) := by
  simp [step, transition, h]

/-- `andThen` answers a next state exactly when its first part does. -/
theorem andThen_next {o : Host.Outcome State Fault Refusal} {f : State → State} :
    andThen o f = .next t ↔ ∃ u, o = .next u ∧ t = f u := by
  cases o <;> simp [andThen, eq_comm]

/-- A step answers a next state only of a machine that is not refused, by executing the fetched word. -/
theorem cycle_next : cycle s = .next t ↔ s.refused = false ∧ exec (decode s.fetchWord) (fetch s) = .next t := by
  unfold cycle
  cases s.refused <;> simp

/-- A pass of the run loop ends the run or is a step. -/
theorem runPass_next : runPass s = .next t ↔
    (s.stopRequested = true ∧ t = endRun s) ∨ (s.stopRequested = false ∧ cycle s = .next t) := by
  unfold runPass
  cases s.stopRequested <;> simp [eq_comm]

theorem beginRun_next : beginRun s = .next t ↔ s.refused = false ∧ t = startRun s := by
  unfold beginRun
  cases s.refused <;> simp [eq_comm]

theorem loadImage_next {image : List (Byte × Byte)} :
    loadImage image s = .next t ↔ imageFits image = true ∧ t = hostLoad image s := by
  unfold loadImage
  cases imageFits image <;> simp [eq_comm]

/-- Everything a transition of an Idle machine can do: nothing but a host write (memory, registers, `pc` and events),
start a run, or a whole single step. -/
theorem whileIdle_inv {act : HostAction} (h : whileIdle act s = .next t) :
    ((∃ regs mem pc events, t = { s with regs := regs, mem := mem, pc := pc, events := events }) ∧
      (s.mem.wf = true → t.mem.wf = true)) ∨
    (act = .run ∧ s.refused = false ∧ t = startRun s) ∨
    (∃ b u, act = .singleStep b ∧ s.refused = false ∧
      exec (decode s.fetchWord) (fetch (beginSingleStep s)) = .next u ∧ t = endSingleStep b u) := by
  cases act with
  | pass => exact .inl ⟨⟨_, _, _, _, (Host.Outcome.next.inj h).symm⟩, by rw [← Host.Outcome.next.inj h]; exact id⟩
  | resetPc => exact .inl ⟨⟨_, _, _, _, (Host.Outcome.next.inj h).symm⟩, by rw [← Host.Outcome.next.inj h]; exact id⟩
  | clearRegisters =>
    exact .inl ⟨⟨_, _, _, _, (Host.Outcome.next.inj h).symm⟩, by rw [← Host.Outcome.next.inj h]; exact id⟩
  | writeRegister i v =>
    exact .inl ⟨⟨_, _, _, _, (Host.Outcome.next.inj h).symm⟩, by rw [← Host.Outcome.next.inj h]; exact id⟩
  | clearMemory =>
    refine .inl ⟨⟨_, _, _, _, (Host.Outcome.next.inj h).symm⟩, fun _ => ?_⟩
    rw [← Host.Outcome.next.inj h]; exact hostClearMemory_mem_wf s
  | writeMemory a v =>
    refine .inl ⟨⟨_, _, _, _, (Host.Outcome.next.inj h).symm⟩, ?_⟩
    rw [← Host.Outcome.next.inj h]; exact writeMem_mem_wf s a v
  | load image =>
    obtain ⟨-, ht⟩ := loadImage_next.mp h
    exact .inl ⟨⟨_, _, _, _, ht.trans (hostLoad_frame s image)⟩, by rw [ht]; exact hostLoad_mem_wf s image⟩
  | singleStep b =>
    obtain ⟨u, hu, ht⟩ := andThen_next.mp h
    obtain ⟨hr, he⟩ := cycle_next.mp hu
    exact .inr (.inr ⟨b, u, rfl, hr, he, ht⟩)
  | run => obtain ⟨hr, ht⟩ := beginRun_next.mp h; exact .inr (.inl ⟨rfl, hr, ht⟩)
  | stop => simp [whileIdle] at h
  | stopMidStep => simp [whileIdle] at h

/-- Everything a transition of a Running machine can do: end the run on a stop request, or execute one instruction,
during which a stop request may arrive. -/
theorem whileRunning_inv {act : HostAction} (h : whileRunning act s = .next t) :
    ((s.stopRequested = true ∨ act = .stop) ∧ (t = endRun s ∨ t = endRun (requestStop s))) ∨
    (s.stopRequested = false ∧ s.refused = false ∧
      ∃ u, exec (decode s.fetchWord) (fetch s) = .next u ∧
        ((act = .pass ∧ t = u) ∨ (act = .stopMidStep ∧ t = requestStop u))) := by
  cases act with
  | pass =>
    rcases runPass_next.mp h with ⟨hs, ht⟩ | ⟨hs, hc⟩
    · exact .inl ⟨.inl hs, .inl ht⟩
    · obtain ⟨hr, he⟩ := cycle_next.mp hc
      exact .inr ⟨hs, hr, t, he, .inl ⟨rfl, rfl⟩⟩
  | stop =>
    rcases runPass_next.mp h with ⟨-, ht⟩ | ⟨hs, -⟩
    · exact .inl ⟨.inr rfl, .inr ht⟩
    · simp at hs
  | stopMidStep =>
    obtain ⟨u, hu, ht⟩ := andThen_next.mp h
    rcases runPass_next.mp hu with ⟨hs, hu⟩ | ⟨hs, hc⟩
    · exact .inl ⟨.inl hs, .inr (by rw [ht, hu]; rfl)⟩
    · obtain ⟨hr, he⟩ := cycle_next.mp hc
      exact .inr ⟨hs, hr, u, he, .inr ⟨rfl, ht⟩⟩
  | resetPc => simp [whileRunning] at h
  | clearRegisters => simp [whileRunning] at h
  | writeRegister i v => simp [whileRunning] at h
  | clearMemory => simp [whileRunning] at h
  | writeMemory a v => simp [whileRunning] at h
  | load image => simp [whileRunning] at h
  | singleStep b => simp [whileRunning] at h
  | run => simp [whileRunning] at h

/-! ## `withFetchWord` -/

/-- The machine that `withFetchWord` gives is in a run that goes on. -/
theorem withFetchWord_runsOn (s : State) (nbits w : Nat) : (s.withFetchWord nbits w).runsOn := ⟨rfl, rfl, rfl, rfl⟩

theorem placeBytes_frame (a : Byte) (bytes : List Byte) (s : State) :
    placeBytes a bytes s = { s with mem := (placeBytes a bytes s).mem } := by
  induction bytes generalizing a s with
  | nil => rfl
  | cons v bytes ih => rw [placeBytes, ih]

/-- What its next step fetches is the word placed. -/
theorem withFetchWord_fetchWord (s : State) (nbits w : Nat) :
    (s.withFetchWord nbits w).fetchWord = BitVec.ofNat 16 (w % 2 ^ nbits) := by
  have hpc : (s.withFetchWord nbits w).pc = s.pc := by
    rw [State.withFetchWord, placeFetchWord, placeBytes_frame]; rfl
  have hne : s.pc.toNat ≠ (s.pc + 1#8).toNat := by
    rw [Ne, BitVec.toNat_inj]; intro h; have := congrArg (· - s.pc) h; simp at this
  have hmem : (s.withFetchWord nbits w).mem =
      Memory.set (Memory.set s.mem s.pc.toNat (byte1 (BitVec.ofNat 16 (w % 2 ^ nbits)))) (s.pc + 1#8).toNat
        (byte2 (BitVec.ofNat 16 (w % 2 ^ nbits))) := rfl
  rw [State.fetchWord, hpc, State.readMem, State.readMem, hmem, Memory.get_set, Memory.get_set, Memory.get_set,
    if_neg hne, if_pos rfl, if_pos rfl, wordOfBytes_bytes]

end Sys2Proof.Machine
end

