-- ==== Sys2Proof/Tests/Slice0.lean ====
section
/-! SUPPORT. Small checks. Every expected value is a vector of spec/95_test_vectors.md (its id in the name or comment) or
is worked out by hand from the rule named; none comes from running the model. -/

namespace Sys2Proof.Tests

open Sys2Proof Sys2Proof.Machine

/-- A machine in a run, at `pc`, with these registers and cells, everything else as at reset. -/
def running (pc : Byte) (regs : List (Reg × Byte)) (cells : List (Byte × Byte)) : State :=
  { State.reset with
    mode := .running, pc := pc,
    regs := regs.foldl (fun v p => v.set p.1.val p.2 p.1.isLt) State.reset.regs,
    mem := cells.foldl (fun m p => Memory.set m p.1.toNat p.2) [] }

/-- The same machine, Idle, with a host that does `act` next. -/
def idle (pc : Byte) (regs : List (Reg × Byte)) (cells : List (Byte × Byte)) (act : HostAction) : State :=
  { running pc regs cells with mode := .idle, hostScript := [act] }

/-- What one step shows of its next state. -/
def after {α : Type} (s : State) (look : State → α) : Option α :=
  match step s with
  | .next t => some (look t)
  | .fault _ => none
  | .refused _ => none

/-! ## Well-formedness: the one check, with an ill-formed term -/

theorem test_wellFormed_refuses_count_16 : (Instr.ror 1 16).wellFormed = false := by decide
theorem test_wellFormed_takes_count_15 : (Instr.ror 1 15).wellFormed = true := by decide

/-! ## Decoding: words written out from the formats of R82 and the map of R84 -/

theorem test_decode_directLoad : decode 0x1AFF#16 = .directLoad 10 0xFF#8 := by decide
theorem test_decode_immediateLoad : decode 0x2105#16 = .immediateLoad 1 0x05#8 := by decide
theorem test_decode_directStore : decode 0x3312#16 = .directStore 3 0x12#8 := by decide
theorem test_decode_move : decode 0x4046#16 = .move 4 6 := by decide
theorem test_decode_integerAdd : decode 0x5123#16 = .integerAdd 1 2 3 := by decide
theorem test_decode_floatingPointAdd : decode 0x6123#16 = .floatingPointAdd 1 2 3 := by decide
theorem test_decode_or : decode 0x7123#16 = .or 1 2 3 := by decide
theorem test_decode_and : decode 0x8123#16 = .and 1 2 3 := by decide
theorem test_decode_xor : decode 0x9123#16 = .xor 1 2 3 := by decide
theorem test_decode_ror : decode 0xA504#16 = .ror 5 4 := by decide
theorem test_decode_jumpEqual : decode 0xB110#16 = .jumpEqual 1 0x10#8 := by decide
theorem test_decode_halt : decode 0xC000#16 = .halt := by decide
theorem test_decode_indirectLoad : decode 0xD012#16 = .indirectLoad 1 2 := by decide
theorem test_decode_indirectStore : decode 0xE052#16 = .indirectStore 5 2 := by decide
theorem test_decode_jumpLessEqual : decode 0xF40A#16 = .jumpLessEqual 4 0x0A#8 := by decide
theorem test_decode_unassigned : decode 0x0FFF#16 = .unassignedOpcode0 := by decide
/-- T7, T13, A22, H2: ignored nibbles. -/
theorem test_decode_ignored_nibbles :
    decode 0xD723#16 = decode 0xD023#16 ∧ decode 0x4F12#16 = decode 0x4012#16 ∧
    decode 0xA1F3#16 = decode 0xA103#16 ∧ decode 0xCFFF#16 = decode 0xC000#16 := by decide
theorem test_decodeBytes_truncated : decodeBytes [0x21#8] = .error .truncated := by decide
/-- The table's bit 15 is the top bit of byte1 (R56, R81). -/
theorem test_decodeTableWord : decodeTableWord 16 0x2105 = some (.immediateLoad 1 0x05#8) := by decide

/-! ## The cycle -/

/-- V1. -/
theorem test_V1_load_immediate :
    after (running 0x00 [] [(0x00, 0x21), (0x01, 0x05)]) (fun t => (t.ir, t.pc, t.readReg 1)) =
      some (0x2105#16, 0x02#8, 0x05#8) := by decide
/-- V2: the increment wraps. -/
theorem test_V2_pc_wraps :
    after (running 0xFE [] [(0xFE, 0x21), (0xFF, 0x07)]) (fun t => (t.pc, t.readReg 1)) = some (0x00#8, 0x07#8) := by
  decide
/-- V3: an instruction that straddles the top of memory. -/
theorem test_V3_fetch_straddles_the_top :
    after (running 0xFF [] [(0xFF, 0x22), (0x00, 0x09)]) (fun t => (t.ir, t.pc, t.readReg 2)) =
      some (0x2209#16, 0x01#8, 0x09#8) := by decide
/-- V5: cleared memory is refused. -/
theorem test_V5_opcode_0_is_refused :
    after (running 0x10 [] []) (fun t => (t.ir, t.pc, t.refused, t.mode)) =
      some (0x0000#16, 0x12#8, true, Mode.idle) := by decide
/-- V7: the events of a taken branch. -/
theorem test_V7_events_of_a_taken_branch :
    after (running 0x20 [] [(0x20, 0xB0), (0x21, 0x40)]) State.events =
      some [.irChanged 0xB040#16, .pcChanged 0x22#8, .pcChanged 0x40#8] := by decide
/-- The word placed at reset is the first instruction to run. -/
theorem test_withFetchWord_runs_first :
    after (State.reset.withFetchWord 16 0x2FAB) (fun t => (t.readReg 15, t.pc, t.mode)) =
      some (0xAB#8, 0x02#8, Mode.running) := by decide

/-! ## Transfers -/

/-- T3. -/
theorem test_T3_direct_load_top_cell :
    after (running 0x00 [] [(0x00, 0x1A), (0x01, 0xFF), (0xFF, 0x5A)]) (·.readReg 10) = some 0x5A#8 := by decide
/-- T4: a load of the instruction's own byte1. -/
theorem test_T4_direct_load_own_byte :
    after (running 0x10 [] [(0x10, 0x11), (0x11, 0x10)]) (·.readReg 1) = some 0x11#8 := by decide
/-- T5: destination and address register are one. -/
theorem test_T5_indirect_load_same_register :
    after (running 0x00 [(1, 0x40)] [(0x00, 0xD0), (0x01, 0x11), (0x40, 0x77)]) (·.readReg 1) = some 0x77#8 := by decide
/-- T8. -/
theorem test_T8_direct_store :
    after (running 0x00 [(0, 0xAB)] [(0x00, 0x30), (0x01, 0x80)]) (fun t => (t.readMem 0x80, t.readReg 0)) =
      some (0xAB#8, 0xAB#8) := by decide
/-- T14: a store into its own bytes. -/
theorem test_T14_store_into_itself :
    after (running 0x04 [(1, 0xC0)] [(0x04, 0x31), (0x05, 0x04)]) (fun t => (t.readMem 0x04, t.ir, t.pc)) =
      some (0xC0#8, 0x3104#16, 0x06#8) := by decide
/-- T10: source and address register are different. -/
theorem test_T10_indirect_store :
    after (running 0x40 [(2, 0x99), (3, 0x00)] [(0x40, 0xE0), (0x41, 0x23)]) (·.readMem 0x00) = some 0x99#8 := by decide
/-- Writing what an unlisted cell reads as leaves no entry. -/
theorem test_store_of_zero_is_canonical :
    after (running 0x00 [] [(0x00, 0x31), (0x01, 0x80), (0x80, 0x55)]) State.mem = some [(0, 0x31#8), (1, 0x80#8)] := by
  decide
/-- T11. -/
theorem test_T11_move :
    after (running 0x00 [(4, 0x04), (6, 0x99)] [(0x00, 0x40), (0x01, 0x46)]) (fun t => (t.readReg 6, t.readReg 4)) =
      some (0x04#8, 0x04#8) := by decide

/-! ## ALU -/

/-- A2. -/
theorem test_A2_add_wraps :
    after (running 0x00 [(2, 0xFF), (3, 0x01)] [(0x00, 0x51), (0x01, 0x23)]) (·.readReg 1) = some 0x00#8 := by decide
/-- A5: the destination is both sources. -/
theorem test_A5_add_doubles :
    after (running 0x00 [(1, 0x81)] [(0x00, 0x51), (0x01, 0x11)]) (·.readReg 1) = some 0x02#8 := by decide
/-- A8, whatever `fpAdd` is. -/
theorem test_A8_float_add :
    after (running 0x00 [(2, 0x12), (3, 0x34)] [(0x00, 0x61), (0x01, 0x23)]) (fun t => (t.readReg 1, t.readReg 2, t.pc)) =
      some (Config.fpAdd 0x12 0x34, 0x12#8, 0x02#8) := rfl
/-- A9. -/
theorem test_A9_or :
    after (running 0x00 [(2, 0xF0), (3, 0x0F)] [(0x00, 0x71), (0x01, 0x23)]) (·.readReg 1) = some 0xFF#8 := by decide
/-- A11. -/
theorem test_A11_and :
    after (running 0x00 [(2, 0xAC), (3, 0x0F)] [(0x00, 0x81), (0x01, 0x23)]) (·.readReg 1) = some 0x0C#8 := by decide
/-- A13. -/
theorem test_A13_xor :
    after (running 0x00 [(2, 0xAA), (3, 0xFF)] [(0x00, 0x91), (0x01, 0x23)]) (·.readReg 1) = some 0x55#8 := by decide
/-- A19: a count of 15. -/
theorem test_A19_ror_15 :
    after (running 0x00 [(1, 0x01)] [(0x00, 0xA1), (0x01, 0x0F)]) (·.readReg 1) = some 0x02#8 := by decide
/-- A21. -/
theorem test_A21_ror_3 :
    after (running 0x00 [(1, 0xB4)] [(0x00, 0xA1), (0x01, 0x03)]) (·.readReg 1) = some 0x96#8 := by decide

/-! ## Control -/

/-- J1 and J2. -/
theorem test_J1_J2_jump_equal :
    after (running 0x08 [] [(0x08, 0xB1), (0x09, 0x10)]) State.pc = some 0x10#8 ∧
    after (running 0x08 [(1, 0x03)] [(0x08, 0xB1), (0x09, 0x10)]) State.pc = some 0x0A#8 := by decide
/-- J9: the compare is unsigned. -/
theorem test_J9_jump_less_equal_is_unsigned :
    after (running 0x16 [(4, 0x80), (0, 0x01)] [(0x16, 0xF4), (0x17, 0x0A)]) State.pc = some 0x18#8 := by decide
/-- J6 and J10. -/
theorem test_J6_J10_jump_less_equal_taken :
    after (running 0x16 [(4, 0x03), (0, 0x03)] [(0x16, 0xF4), (0x17, 0x0A)]) State.pc = some 0x0A#8 ∧
    after (running 0x16 [(4, 0x01), (0, 0x80)] [(0x16, 0xF4), (0x17, 0x0A)]) State.pc = some 0x0A#8 := by decide
/-- H2 and H3. -/
theorem test_H2_H3_halt :
    after (running 0x08 [] [(0x08, 0xCF), (0x09, 0xFF)]) (fun t => (t.pc, t.ir, t.mode, t.halted)) =
      some (0x0A#8, 0xCFFF#16, Mode.idle, true) ∧
    after (running 0xFE [] [(0xFE, 0xC0)]) (fun t => (t.pc, t.halted)) = some (0x00#8, true) := by decide

/-! ## The host -/

/-- R134: a single step of a Halt, and of another instruction. -/
theorem test_single_step :
    after (idle 0x00 [] [(0x00, 0xC0)] (.singleStep false)) (fun t => (t.halted, t.mode, t.pc)) =
      some (true, Mode.idle, 0x02#8) ∧
    after (idle 0x00 [] [(0x00, 0x20), (0x01, 0x07)] (.singleStep false)) (fun t => (t.halted, t.mode, t.readReg 0)) =
      some (false, Mode.idle, 0x07#8) := by decide
/-- L5. -/
theorem test_L5_reset_pc :
    after (idle 0x42 [] [] .resetPc) (fun t => (t.pc, t.events)) = some (0x00#8, [.pcChanged 0x00#8]) := by decide
/-- L4. -/
theorem test_L4_clear_registers :
    after (idle 0x42 [(0, 0x11), (15, 0x22)] [(0x01, 0x33)] .clearRegisters)
      (fun t => (t.readReg 0, t.readReg 15, t.pc, t.readMem 0x01)) = some (0x00#8, 0x00#8, 0x42#8, 0x33#8) := by decide
/-- W7. -/
theorem test_W7_clear_memory :
    after (idle 0x42 [(0, 0x11)] [(0x00, 0x33), (0xFF, 0x44)] .clearMemory) (fun t => (t.mem, t.readReg 0)) =
      some ([], 0x11#8) := by decide
/-- R238: the loader, over an old cell. -/
theorem test_load :
    after (idle 0x00 [] [(0x01, 0x99), (0x04, 0x77)] (.load [(0xB0, 0x04), (0xC0, 0x00)])) State.mem =
      some [(0, 0xB0#8), (1, 0x04#8), (2, 0xC0#8), (4, 0x77#8)] := by decide
/-- R136: a stop between instructions, and during one. -/
theorem test_stop :
    after { running 0x00 [] [(0x00, 0x20), (0x01, 0x07)] with hostScript := [.stop] }
      (fun t => (t.mode, t.pc, t.stopRequested)) = some (Mode.idle, 0x00#8, true) ∧
    after { running 0x00 [] [(0x00, 0x20), (0x01, 0x07)] with hostScript := [.stopMidStep] }
      (fun t => (t.mode, t.pc, t.stopRequested)) = some (Mode.running, 0x02#8, true) := by decide
/-- R239: a host that subscribes to `PcChanged` alone. -/
theorem test_delivered :
    after (running 0x00 [] [(0x00, 0x20), (0x01, 0x07)]) (delivered [.pc]) = some [.pcChanged 0x02#8] := by decide

/-! ## The assembler -/

open Assembler

/-- W2 and W3. -/
theorem test_W2_W3_halt_and_label :
    assemble "halt".toList = .ok [(0xC0, 0x00)] ∧
    assemble "jmp L\nhalt\nL: halt".toList = .ok [(0xB0, 0x04), (0xC0, 0x00), (0xC0, 0x00)] := by decide
/-- W4. -/
theorem test_W4_db : assemble "db 1,2,3".toList = .ok [(0x01, 0x02), (0x03, 0x00)] := by decide
/-- W6 and W9. -/
theorem test_W6_W9_errors :
    assemble "ror R1,16".toList = .fails .outOfRangeImmediate ∧ assemble "ror R1,15".toList = .ok [(0xA1, 0x0F)] ∧
    assemble "frobnicate R1".toList = .fails .unrecognizedMnemonic := by decide
/-- W1: register tokens. -/
theorem test_W1_register_tokens :
    register ['R', '9'] = some 9 ∧ register ['R', 'F'] = some 15 ∧ register ['r', 'a'] = some 10 ∧
    register ['R', '1', '0'] = none ∧ register ['R', 'G'] = none ∧ register ['[', 'R', '1', ']'] = none := by decide
/-- P1's image, with gap bytes 0 (R103). -/
theorem test_P1_image :
    assemble ("  load  R1,[0x10]   ; 00: 11 10\n load R2,[0x11]\n ADDI R3,R1,R2\n store R3,[0x12]\n halt\n" ++
      " org 0x10\n db 200,100").toList =
      .ok [(0x11, 0x10), (0x12, 0x11), (0x53, 0x12), (0x33, 0x12), (0xC0, 0), (0, 0), (0, 0), (0, 0), (0xC8, 0x64)] := by
  decide
/-- R93: the literal forms, each of value 31 or -1. -/
theorem test_numeric_forms :
    numeric "31".toList = some 31 ∧ numeric "31d".toList = some 31 ∧ numeric "11111b".toList = some 31 ∧
    numeric "0x1F".toList = some 31 ∧ numeric "$1f".toList = some 31 ∧ numeric "1Fh".toList = some 31 ∧
    numeric "-1".toList = some (-1) ∧ numeric "Fh".toList = none := by decide
/-- R106 and R98: the operand forms of load and store. -/
theorem test_load_store_forms :
    assemble "load R1,-1\nload R2,[R3]\nload R4,[5]\nstore R6,[R7]\nstore R8,[9]".toList =
      .ok [(0x21, 0xFF), (0xD0, 0x23), (0x14, 0x05), (0xE0, 0x67), (0x38, 0x09)] ∧
    assemble "load R1,R2".toList = .fails .operandSyntax ∧ assemble "store R1,5".toList = .fails .operandSyntax := by
  decide
/-- R91, R97, R103: a bad label, a redefined one (the last definition wins), one that is never defined. -/
theorem test_labels :
    assemble "1a: halt".toList = .fails .invalidLabelSyntax ∧
    assemble "jmp L\nL: halt\nL: halt".toList = .ok [(0xB0, 0x04), (0xC0, 0x00), (0xC0, 0x00)] ∧
    assemble "jmp L".toList = .fails .undefinedSymbol := by decide

/-! ## Witnesses: each statement's hypotheses are met together, at the boundary values of its clauses -/

/-- A quiet run, at the top of memory. -/
def quiet : State := running 0xFF [(0, 0x80), (1, 0x80)] [(0xFF, 0xB1), (0x00, 0x40)]

theorem witness_runsOn : quiet.runsOn := ⟨rfl, rfl, rfl, rfl⟩
theorem witness_wellFormed_state : quiet.wf = true := by decide
theorem witness_StepKeepsWellFormed : quiet.wf = true ∧ (after quiet State.wf) = some true := by decide
theorem witness_StepRunsDecodedInstruction : quiet.runsOn ∧
    decodeBytes [quiet.readMem quiet.pc, quiet.readMem (quiet.pc + 1#8)] = .ok (.jumpEqual 1 0x40#8, []) :=
  ⟨⟨rfl, rfl, rfl, rfl⟩, by decide⟩
theorem witness_NoStepFails : quiet.runsOn ∧ after quiet State.pc = some 0x40#8 := ⟨⟨rfl, rfl, rfl, rfl⟩, by decide⟩
/-- One quiet run for each clause: a register write, a store, a taken branch, and a Halt and a branch not taken. -/
theorem witness_EventsComeInWriteOrder :
    (running 0 [] [(0, 0x2F)]).runsOn ∧ destReg (decode (running 0 [] [(0, 0x2F)]).fetchWord) = some 15 ∧
    (running 0 [(1, 0xFF)] [(0, 0xE0), (1, 0x11)]).runsOn ∧
    storeAddr (decode (running 0 [(1, 0xFF)] [(0, 0xE0), (1, 0x11)]).fetchWord)
      (running 0 [(1, 0xFF)] [(0, 0xE0), (1, 0x11)]) = some 0xFF#8 ∧
    quiet.runsOn ∧ takenTarget (decode quiet.fetchWord) quiet = some 0x40#8 ∧
    (running 0 [] [(0, 0xC0)]).runsOn ∧ decode (running 0 [] [(0, 0xC0)]).fetchWord = .halt ∧
    (running 0 [(1, 0x80)] [(0, 0xF1)]).runsOn ∧
    takenTarget (decode (running 0 [(1, 0x80)] [(0, 0xF1)]).fetchWord) (running 0 [(1, 0x80)] [(0, 0xF1)]) = none :=
  ⟨⟨rfl, rfl, rfl, rfl⟩, by decide, ⟨rfl, rfl, rfl, rfl⟩, by decide, ⟨rfl, rfl, rfl, rfl⟩, by decide,
    ⟨rfl, rfl, rfl, rfl⟩, by decide, ⟨rfl, rfl, rfl, rfl⟩, by decide⟩
theorem witness_DecodeOfEncode : (Instr.ror 15 15).wellFormed = true := by decide
theorem witness_IgnoredBits : (0xD723#16) &&& ~~~(ignoredBits 0xD723#16) = 0xD023#16 &&& ~~~(ignoredBits 0xD723#16) := by
  decide
theorem witness_FetchLoads_wraps :
    (running 0xFE [] []).pc = 0xFE#8 ∧ (running 0xFF [] []).pc = 0xFF#8 := by decide
theorem witness_OneRegisterOrOneCell : exec (.indirectStore 0 1) quiet = .next (quiet.writeMem 0x80#8 0x80#8) := rfl
theorem witness_OnlyTakenBranchesWritePc : exec (.jumpLessEqual 1 0x05#8) quiet = .next (quiet.writePc 0x05#8) ∧
    (quiet.writePc 0x05#8).pc ≠ quiet.pc := ⟨rfl, by decide⟩
theorem witness_IrIsWrittenOnlyByTheFetch : (after quiet State.ir) = some 0xB140#16 ∧ quiet.ir ≠ 0xB140#16 := by decide
/-- A quiet run at address 0 whose host does nothing after it, at `3 1 xy` and at `E 0 1 1` with R1 = `xy`. -/
def storing (xy : Byte) : State := running 0 [(1, 0xC0)] [(0, 0x31), (1, xy)]
def storingAt (xy : Byte) : State := running 0 [(1, xy)] [(0, 0xE0), (1, 0x11)]
/-- Each form, into the next instruction's first byte, its second byte, and beyond it. -/
theorem witness_StoreIsSeen :
    (∀ xy ∈ [0x02#8, 0x03#8, 0x04#8], decode (storing xy).fetchWord = .directStore 1 xy ∧
      decode (storingAt xy).fetchWord = .indirectStore 1 1 ∧ (storingAt xy).readReg 1 = xy) ∧
    (∀ xy, (storing xy).runsOn ∧ (storing xy).hostScript.tail = []) ∧
    (∀ xy, (storingAt xy).runsOn ∧ (storingAt xy).hostScript.tail = []) :=
  ⟨by decide, fun _ => ⟨⟨rfl, rfl, rfl, rfl⟩, rfl⟩, fun _ => ⟨⟨rfl, rfl, rfl, rfl⟩, rfl⟩⟩
theorem witness_MemoryWrite : quiet.mem.wf = true := by decide
theorem witness_StepWritesOneRegisterOrOneCell :
    (running 0x00 [(1, 0x40)] [(0x00, 0xE0), (0x01, 0x11)]).runsOn ∧
    after (running 0x00 [(1, 0x40)] [(0x00, 0xE0), (0x01, 0x11)]) (·.readMem 0x40) = some 0x40#8 :=
  ⟨⟨rfl, rfl, rfl, rfl⟩, by decide⟩
theorem witness_HaltEndsTheRun : (running 0xFF [] [(0xFF, 0xC0)]).runsOn ∧
    decode (running 0xFF [] [(0xFF, 0xC0)]).fetchWord = .halt := ⟨⟨rfl, rfl, rfl, rfl⟩, by decide⟩
theorem witness_CanonicalMemories : Memory.wf [(0, 0x01#8), (255, 0xFF#8)] = true := by decide
theorem witness_JumpEqual :
    quiet.readReg 1 = quiet.readReg 0 ∧ quiet.readReg 2 ≠ quiet.readReg 0 := by decide
theorem witness_JumpLessEqual :
    (quiet.readReg 1).toNat ≤ (quiet.readReg 0).toNat ∧ (quiet.readReg 2).toNat ≤ (quiet.readReg 0).toNat ∧
    ((running 0 [(0, 0x7F), (1, 0x80)] []).readReg 0).toNat < ((running 0 [(0, 0x7F), (1, 0x80)] []).readReg 1).toNat := by
  decide
theorem witness_SingleStep :
    (idle 0 [] [] (.singleStep true)).mode = .idle ∧ (idle 0 [] [] (.singleStep true)).refused = false ∧
    (idle 0 [] [] (.singleStep true)).hostScript = [.singleStep true] := by decide
theorem witness_RunStarts : (idle 0 [] [] .run).mode = .idle ∧ (idle 0 [] [] .run).refused = false ∧
    (idle 0 [] [] .run).hostScript = [.run] := by decide
/-- A running machine whose host does `act` next, at a Halt. -/
def atHalt (act : HostAction) : State := { running 0 [] [(0x00, 0xC0)] with hostScript := [act] }
/-- The script at its end, and a further stopMidStep at its head. -/
theorem witness_Stop_already_requested :
    ({ running 0 [] [] with stopRequested := true }).mode = .running ∧
    nextHostAction { running 0 [] [] with stopRequested := true } = .pass ∧
    nextHostAction { atHalt .stopMidStep with stopRequested := true } = .stopMidStep := by decide
theorem witness_Stop_between : (atHalt .stop).mode = .running ∧ nextHostAction (atHalt .stop) = .stop := by decide
/-- L3: `B0 00` at 0, a stop during the step that is the script's last entry; the step goes on Running, and the transition
after it is a host that does nothing. -/
theorem witness_Stop_during :
    (∀ s : State, s = { running 0 [] [(0, 0xB0)] with hostScript := [.stopMidStep] } →
      s.mode = .running ∧ s.stopRequested = false ∧ s.refused = false ∧ nextHostAction s = .stopMidStep ∧
      after s (fun t => (t.mode, t.stopRequested, t.hostScript)) = some (Mode.running, true, [])) ∧
    (nextHostAction (running 0 [] [])).admittedDuringRun = true :=
  ⟨by rintro s rfl; decide, by decide⟩
/-- L3: the run ends after that step with `pc` 0x00, halted false and the mode Idle. -/
theorem test_L3_stop_after_a_step :
    after { running 0 [] [(0, 0xB0)] with stopRequested := true } (fun t => (t.pc, t.halted, t.mode)) =
      some (0x00#8, false, Mode.idle) := by decide
theorem witness_HaltWins : (atHalt .stopMidStep).mode = .running ∧ (atHalt .stopMidStep).stopRequested = false ∧
    (atHalt .stopMidStep).refused = false ∧ (atHalt .stopMidStep).hostScript = [.stopMidStep] ∧
    decode (atHalt .stopMidStep).fetchWord = .halt := by decide
theorem witness_RefusedMachine :
    ({ idle 0 [] [] .run with refused := true }).mode = .idle ∧ ({ idle 0 [] [] .run with refused := true }).refused = true ∧
    ({ idle 0 [] [] (.singleStep false) with refused := true }).hostScript = [.singleStep false] := by decide
theorem witness_RefusedIsNeverCleared :
    after { idle 0 [] [] .resetPc with refused := true } State.refused = some true ∧
    after (running 0 [] []) State.refused = some true ∧ (running 0 [] []).refused = false := by decide
theorem witness_ModeChanges :
    after (idle 0 [] [] .run) State.mode = some .running ∧ after (atHalt .pass) State.mode = some .idle ∧
    after (running 0 [] []) State.mode = some .idle ∧ after (atHalt .stop) State.mode = some .idle := by decide
theorem witness_IdlePreserves : State.reset.mode = .idle ∧ nextHostAction State.reset = .pass ∧
    (idle 0 [] [] .pass).mode = .idle ∧ nextHostAction (idle 0 [] [] .pass) = .pass := by decide
theorem witness_ARunEnds : (atHalt .stopMidStep).halted = false ∧
    ∀ act ∈ (atHalt .stopMidStep).hostScript, act.admittedDuringRun = true := by decide
theorem witness_ResetPc : (idle 0x42 [] [] .resetPc).mode = .idle ∧ (idle 0x42 [] [] .resetPc).hostScript = [.resetPc] := by
  decide
theorem witness_ClearRegisters : (idle 0 [] [] .clearRegisters).mode = .idle ∧
    (idle 0 [] [] .clearRegisters).hostScript = [.clearRegisters] := by decide
theorem witness_ClearMemory : (idle 0 [] [] .clearMemory).mode = .idle ∧
    (idle 0 [] [] .clearMemory).hostScript = [.clearMemory] := by decide
theorem witness_HostWritesOneRegister : (idle 0 [] [] (.writeRegister 15 0xFF)).mode = .idle ∧
    (idle 0 [] [] (.writeRegister 15 0xFF)).hostScript = [.writeRegister 15 0xFF] ∧ (0 : Reg) ≠ 15 := by decide
theorem witness_HostWritesOneCell : (idle 0 [] [] (.writeMemory 0xFF 0x00)).mode = .idle ∧
    (idle 0 [] [] (.writeMemory 0xFF 0x00)).hostScript = [.writeMemory 0xFF 0x00] ∧ (0x00#8 : Byte) ≠ 0xFF#8 := by decide
/-- The longest image that fits: its last instruction is number 127, and no cell lies beyond it. -/
theorem witness_Loader : (idle 0 [] [] (.load (List.replicate 128 (0xC0, 0x01)))).mode = .idle ∧
    (List.replicate 128 ((0xC0#8 : Byte), (0x01#8 : Byte))).length ≤ 128 ∧
    (List.replicate 128 ((0xC0#8 : Byte), (0x01#8 : Byte)))[127]? = some (0xC0#8, 0x01#8) :=
  ⟨rfl, by simp, by simp⟩
/-- An image of one instruction: cell 2 is the first beyond it. -/
theorem witness_Loader_beyond : 2 * [((0xC0#8 : Byte), (0x00#8 : Byte))].length ≤ (0x02#8 : Byte).toNat := by decide
theorem witness_TooLongAnImage : (idle 0 [] [] (.load (List.replicate 129 (0xC0, 0x01)))).mode = .idle ∧
    256 < 2 * (List.replicate 129 ((0xC0#8 : Byte), (0x01#8 : Byte))).length :=
  ⟨rfl, by simp⟩
theorem witness_HostWritesHaveNoMove : (atHalt (.writeRegister 0 0)).mode = .running ∧
    (nextHostAction (atHalt (.writeRegister 0 0))).admittedDuringRun = false := by decide
theorem witness_RorAssembles :
    register ['R', '1'] = some 1 ∧ numeric "0".toList = some 0 ∧ numeric "15".toList = some 15 ∧
    numeric "16".toList = some 16 ∧ numeric "255".toList = some 255 ∧ numeric "-1".toList = some (-1) ∧
    numeric "-128".toList = some (-128) ∧ numeric "256".toList = some 256 ∧ numeric "-129".toList = some (-129) ∧
    numeric "L".toList = none := by decide
theorem witness_AssembledPrograms : assemble "halt".toList = .ok [(0xC0, 0x00)] := by decide

end Sys2Proof.Tests
end

/-! Proofs about the state (10_state.md): what reset holds, which parts of the state an executed instruction may write,
that `pc` and `ir` are no data, and what a transition does to `ir` and `refused`. -/

namespace Sys2Proof.Machine

variable {i : Instr} {s t : State}

/-! ## Frames of the single writes -/

theorem sameRegsBut_of_regs_eq (h : t.regs = s.regs) (except : Option Reg) : sameRegsBut except s t :=
  fun q _ => readReg_congr h q

theorem sameMemBut_of_mem_eq (h : t.mem = s.mem) (except : Option Byte) : sameMemBut except s t :=
  fun a _ => readMem_congr h a

theorem sameRegsBut_writeReg (s : State) (r : Reg) (v : Byte) : sameRegsBut (some r) s (s.writeReg r v) := by
  intro q hq
  have hne : q ≠ r := fun h => hq (congrArg some h.symm)
  rw [readReg_writeReg, if_neg hne]

theorem sameMemBut_writeMem (s : State) (a v : Byte) : sameMemBut (some a) s (s.writeMem a v) := by
  intro b hb
  have hne : b ≠ a := fun h => hb (congrArg some h.symm)
  rw [readMem_writeMem, if_neg hne]

theorem onlyRegWritten_writeReg (s : State) (r : Reg) (v : Byte) : onlyRegWritten r s (s.writeReg r v) :=
  ⟨sameRegsBut_writeReg s r v, sameMemBut_of_mem_eq rfl none, rfl, rfl, ⟨rfl, rfl, rfl, rfl, rfl⟩, by simp⟩

/-! ## What an executed instruction keeps -/

/-- Every instruction has a next state (R139). -/
theorem exec_total (i : Instr) (s : State) : ∃ t, exec i s = .next t := by
  cases i <;> exact ⟨_, rfl⟩

theorem exec_sameRegsBut (h : exec i s = .next t) : sameRegsBut (destReg i) s t := by
  rcases exec_inv h with ⟨r, v, hd, -, rfl⟩ | ⟨a, v, -, -, rfl⟩ | ⟨r, xy, -, ⟨-, rfl⟩ | ⟨-, rfl⟩⟩ |
    ⟨r, xy, -, ⟨-, rfl⟩ | ⟨-, rfl⟩⟩ | ⟨-, rfl⟩ | ⟨-, rfl⟩
  · rw [hd]; exact sameRegsBut_writeReg s r v
  all_goals exact sameRegsBut_of_regs_eq rfl _

theorem exec_sameMemBut (h : exec i s = .next t) : sameMemBut (storeAddr i s) s t := by
  rcases exec_inv h with ⟨r, v, -, -, rfl⟩ | ⟨a, v, -, ha, rfl⟩ | ⟨r, xy, -, ⟨-, rfl⟩ | ⟨-, rfl⟩⟩ |
    ⟨r, xy, -, ⟨-, rfl⟩ | ⟨-, rfl⟩⟩ | ⟨-, rfl⟩ | ⟨-, rfl⟩
  · exact sameMemBut_of_mem_eq rfl _
  · rw [ha]; exact sameMemBut_writeMem s a v
  all_goals exact sameMemBut_of_mem_eq rfl _

/-- No instruction names both a register and a cell to write. -/
theorem destReg_eq_none_or_storeAddr_eq_none (i : Instr) (s : State) : destReg i = none ∨ storeAddr i s = none := by
  cases hd : destReg i with
  | none => exact .inl rfl
  | some r => exact .inr (storeAddr_eq_none_of_destReg hd)

/-- Execution writes neither `ir` nor what the host alone changes. -/
theorem exec_keeps_ir_stopRequested_hostScript (h : exec i s = .next t) :
    t.ir = s.ir ∧ t.stopRequested = s.stopRequested ∧ t.hostScript = s.hostScript := by
  rcases exec_inv h with ⟨r, v, -, -, rfl⟩ | ⟨a, v, -, -, rfl⟩ | ⟨r, xy, -, ⟨-, rfl⟩ | ⟨-, rfl⟩⟩ |
    ⟨r, xy, -, ⟨-, rfl⟩ | ⟨-, rfl⟩⟩ | ⟨-, rfl⟩ | ⟨-, rfl⟩ <;> exact ⟨rfl, rfl, rfl⟩

theorem exec_ir (h : exec i s = .next t) : t.ir = s.ir := (exec_keeps_ir_stopRequested_hostScript h).1

/-- Only the unassigned opcode touches `refused`. -/
theorem exec_refused (h : exec i s = .next t) : t.refused = s.refused ∨ i = .unassignedOpcode0 := by
  rcases exec_inv h with ⟨r, v, -, -, rfl⟩ | ⟨a, v, -, -, rfl⟩ | ⟨r, xy, -, ⟨-, rfl⟩ | ⟨-, rfl⟩⟩ |
    ⟨r, xy, -, ⟨-, rfl⟩ | ⟨-, rfl⟩⟩ | ⟨-, rfl⟩ | ⟨hi, rfl⟩
  case inr.inr.inr.inr.inr => exact .inr hi
  all_goals exact .inl rfl

/-! ## Taken branches -/

/-- An instruction has a taken branch's target exactly when it is a branch whose condition holds. -/
theorem takenTarget_eq_some {xy : Byte} : takenTarget i s = some xy ↔
    ∃ r, (i = .jumpEqual r xy ∧ s.readReg r = s.readReg 0) ∨
      (i = .jumpLessEqual r xy ∧ (s.readReg r).toNat ≤ (s.readReg 0).toNat) := by
  cases i with
  | jumpEqual r a => simp [takenTarget, and_comm, and_assoc]
  | jumpLessEqual r a => simp [takenTarget, and_comm, and_assoc]
  | _ => simp [takenTarget]

theorem exec_jumpEqual (r : Reg) (xy : Byte) (s : State) :
    exec (.jumpEqual r xy) s = .next (if s.readReg r = s.readReg 0 then s.writePc xy else s) := by
  rw [exec, execJumpEqual, branchIf, eqCondition, regOperand, branchReference, regOperand, branchTarget]
  simp only [decide_eq_true_eq]

theorem exec_jumpLessEqual (r : Reg) (xy : Byte) (s : State) :
    exec (.jumpLessEqual r xy) s =
      .next (if (s.readReg r).toNat ≤ (s.readReg 0).toNat then s.writePc xy else s) := by
  simp [exec, execJumpLessEqual, branchIf, branchTarget, leCondition_iff, regOperand, branchReference]

/-- A taken branch writes its target to `pc` and does nothing else. -/
theorem exec_of_takenTarget_eq_some {xy : Byte} (h : takenTarget i s = some xy) :
    exec i s = .next (s.writePc xy) := by
  obtain ⟨r, ⟨rfl, hc⟩ | ⟨rfl, hc⟩⟩ := takenTarget_eq_some.mp h
  · rw [exec_jumpEqual, if_pos hc]
  · rw [exec_jumpLessEqual, if_pos hc]

/-- An instruction that takes no branch keeps `pc`. -/
theorem exec_pc_of_takenTarget_eq_none (h : exec i s = .next t) (hn : takenTarget i s = none) : t.pc = s.pc := by
  rcases exec_inv h with ⟨r, v, -, -, rfl⟩ | ⟨a, v, -, -, rfl⟩ | ⟨r, xy, rfl, ⟨hc, -⟩ | ⟨-, rfl⟩⟩ |
    ⟨r, xy, rfl, ⟨hc, -⟩ | ⟨-, rfl⟩⟩ | ⟨-, rfl⟩ | ⟨-, rfl⟩
  case inr.inr.inl.inl => simp [takenTarget, hc] at hn
  case inr.inr.inr.inl.inl => simp [takenTarget, (leCondition_iff _ _).mp hc] at hn
  all_goals rfl

/-! ## `pc` and `ir` are no data -/

/-- The state with another `pc` and another `ir`. -/
def State.withPcIr (p : Byte) (w : Word) (s : State) : State := { s with pc := p, ir := w }

@[simp] theorem readReg_withPcIr (s : State) (p : Byte) (w : Word) (q : Reg) :
    (s.withPcIr p w).readReg q = s.readReg q := rfl

@[simp] theorem takenTarget_withPcIr (i : Instr) (s : State) (p : Byte) (w : Word) :
    takenTarget i (s.withPcIr p w) = takenTarget i s := takenTarget_congr rfl

/-- An instruction that takes no branch does the same whatever `pc` and `ir` hold, and carries both along. -/
theorem exec_withPcIr_of_takenTarget_eq_none (p : Byte) (w : Word) (h : exec i s = .next t)
    (hn : takenTarget i s = none) : exec i (s.withPcIr p w) = .next (t.withPcIr p w) := by
  cases i with
  | jumpEqual r xy =>
    have hc : s.readReg r ≠ s.readReg 0 := by simpa [takenTarget] using hn
    rw [exec_jumpEqual, if_neg hc] at h
    rw [exec_jumpEqual, readReg_withPcIr, readReg_withPcIr, if_neg hc, Host.Outcome.next.inj h]
  | jumpLessEqual r xy =>
    have hc : ¬ (s.readReg r).toNat ≤ (s.readReg 0).toNat := by simpa [takenTarget] using hn
    rw [exec_jumpLessEqual, if_neg hc] at h
    rw [exec_jumpLessEqual, readReg_withPcIr, readReg_withPcIr, if_neg hc, Host.Outcome.next.inj h]
  | _ => cases h; rfl

/-! ## What a transition does to `ir` and `refused` -/

/-- A transition keeps `ir` and `refused`, or it is the execution of the instruction that a machine which is not refused
fetches at `pc`; a host control around that execution leaves its `ir` and `refused` as they are. -/
theorem step_keeps_ir_refused_or_executes (h : step s = .next t) :
    (t.ir = s.ir ∧ t.refused = s.refused) ∨
    (s.refused = false ∧ ∃ f u, exec (decode s.fetchWord) f = .next u ∧
      f.ir = s.fetchWord ∧ f.refused = s.refused ∧ t.ir = u.ir ∧ t.refused = u.refused) := by
  cases hm : s.mode with
  | idle =>
    rw [step_of_idle hm] at h
    rcases whileIdle_inv h with ⟨⟨regs, mem, pc, events, rfl⟩, -⟩ | ⟨-, -, rfl⟩ | ⟨b, u, -, hr, hu, rfl⟩
    · exact .inl ⟨rfl, rfl⟩
    · exact .inl ⟨rfl, rfl⟩
    · exact .inr ⟨hr, _, u, hu, rfl, rfl, rfl, rfl⟩
  | running =>
    rw [step_of_running hm] at h
    rcases whileRunning_inv h with ⟨-, rfl | rfl⟩ | ⟨-, hr, u, hu, ⟨-, rfl⟩ | ⟨-, rfl⟩⟩
    · exact .inl ⟨rfl, rfl⟩
    · exact .inl ⟨rfl, rfl⟩
    · exact .inr ⟨hr, _, _, hu, rfl, rfl, rfl, rfl⟩
    · exact .inr ⟨hr, _, u, hu, rfl, rfl, rfl, rfl⟩

/-! ## The obligations -/

/-- Settles O13: each part is the frame of `exec`, from the writes that `exec_inv` lists. -/
theorem oneRegisterOrOneCellIsWritten : Obligations.OneRegisterOrOneCellIsWritten := fun i s _ h =>
  ⟨exec_sameRegsBut h, exec_sameMemBut h, destReg_eq_none_or_storeAddr_eq_none i s,
    exec_keeps_ir_stopRequested_hostScript h⟩

/-- Settles O15: an instruction that takes no branch keeps `pc`, and a taken branch writes its operand. -/
theorem onlyTakenBranchesWritePc : Obligations.OnlyTakenBranchesWritePc := by
  intro i s t h hpc
  cases htaken : takenTarget i s with
  | none => exact absurd (exec_pc_of_takenTarget_eq_none h htaken) hpc
  | some xy =>
    have ht : s.writePc xy = t := Host.Outcome.next.inj ((exec_of_takenTarget_eq_some htaken).symm.trans h)
    obtain ⟨r, hbranch⟩ := takenTarget_eq_some.mp htaken
    exact ⟨r, xy, by rw [← ht, State.writePc_pc], hbranch⟩

/-- Settles O16: both executions take the same branch, or neither takes one and execution commutes with the change of
`pc` and `ir`. -/
theorem pcAndIrAreNotData : Obligations.PcAndIrAreNotData := by
  intro i s p w
  cases htaken : takenTarget i s with
  | none =>
    obtain ⟨t, ht⟩ := exec_total i s
    exact ⟨t, t.withPcIr p w, ht, exec_withPcIr_of_takenTarget_eq_none p w ht htaken, rfl, rfl,
      ⟨rfl, rfl, rfl, rfl, rfl⟩, rfl, exec_ir ht, rfl, .inl ⟨exec_pc_of_takenTarget_eq_none ht htaken, rfl⟩⟩
  | some xy =>
    have htaken' : takenTarget i (s.withPcIr p w) = some xy := (takenTarget_withPcIr i s p w).trans htaken
    exact ⟨s.writePc xy, (s.withPcIr p w).writePc xy, exec_of_takenTarget_eq_some htaken,
      exec_of_takenTarget_eq_some htaken', rfl, rfl, ⟨rfl, rfl, rfl, rfl, rfl⟩, rfl, rfl, rfl, .inr rfl⟩

/-- Settles O17: a transition that changes `ir` executes an instruction, which keeps the `ir` that its fetch loaded. -/
theorem irIsWrittenOnlyByTheFetch : Obligations.IrIsWrittenOnlyByTheFetch := by
  intro s t h hir
  rcases step_keeps_ir_refused_or_executes h with ⟨hkept, -⟩ | ⟨-, f, u, hu, hf, -, ht, -⟩
  · exact absurd hkept hir
  · calc t.ir = u.ir := ht
      _ = f.ir := exec_ir hu
      _ = s.fetchWord := hf

/-- Settles O45: only an executed instruction can change `refused`, none is executed once it is set, and of the
instructions only the unassigned opcode touches it. -/
theorem refusedIsNeverCleared : Obligations.RefusedIsNeverCleared := by
  intro s t h
  rcases step_keeps_ir_refused_or_executes h with ⟨-, hkept⟩ | ⟨hr, f, u, hu, -, hf, -, ht⟩
  · exact ⟨fun hs => hkept.trans hs, fun hs ht => by simp [hkept, hs] at ht⟩
  · refine ⟨fun hs => by simp [hr] at hs, fun _ hset => ?_⟩
    rcases exec_refused hu with hkept | hop
    · simp [ht, hkept, hf, hr] at hset
    · exact hop

/-- Settles O7: each value is read off the reset state. -/
theorem resetValues : Obligations.ResetValues := by
  refine ⟨rfl, rfl, rfl, rfl, rfl, rfl, fun r => ?_, fun a => ?_⟩
  · simp [State.readReg, State.reset, Config.initReg, Vector.get_eq_getElem]
  · exact Memory.get_nil a.toNat

/-- Settles O8: reset memory has no entry, and no flag is set. -/
theorem resetIsWellFormed : Obligations.ResetIsWellFormed := rfl

/-- Settles O20: the frame of each write. -/
theorem registersDoNotAlias : Obligations.RegistersDoNotAlias := fun s i a v =>
  ⟨by rw [readReg_writeReg, if_pos rfl], onlyRegWritten_writeReg s i v,
    sameRegsBut_of_regs_eq rfl none, sameRegsBut_of_regs_eq rfl none⟩

end Sys2Proof.Machine

/-! Proofs about memory (20_memory.md): what one write changes, that the canonical form is determined by what it reads
as, that every transition keeps the invariant, and that the next fetch sees a store. -/

namespace Sys2Proof.Machine

variable {i : Instr} {s t : State}

/-! ## One write -/

theorem onlyCellWritten_writeMem (s : State) (a v : Byte) : onlyCellWritten a s (s.writeMem a v) :=
  ⟨sameRegsBut_of_regs_eq rfl none, sameMemBut_writeMem s a v, rfl, rfl, ⟨rfl, rfl, rfl, rfl, rfl⟩, by simp⟩

/-! ## The canonical form, read from its first entry -/

theorem Memory.wf_cons {k : Nat} {v : Byte} {m : Memory} : Memory.wf ((k, v) :: m) = true ↔
    k < 256 ∧ v ≠ Config.unlistedByte ∧ Memory.risingFrom (some k) m = true ∧ m.wf = true := by
  have hmono : Memory.risingFrom (some k) m = true → Memory.risingFrom none m = true :=
    fun h => Memory.rising_mono h fun _ _ => rfl
  simp only [Memory.wf_iff, Memory.risingFrom, Option.all_none, Bool.true_and, List.forall_mem_cons]
  tauto

/-- A memory whose entries all lie above `k` has none at `k` or below. -/
theorem Memory.get_eq_unlistedByte_of_risingFrom {k a : Nat} {m : Memory}
    (h : Memory.risingFrom (some k) m = true) (ha : a ≤ k) : m.get a = Config.unlistedByte := by
  induction m generalizing k with
  | nil => rfl
  | cons cell m ih =>
    obtain ⟨j, v⟩ := cell
    simp only [Memory.risingFrom, Option.all_some, Bool.and_eq_true, decide_eq_true_eq] at h
    obtain ⟨hkj, hm⟩ := h
    rw [Memory.get_cons, if_neg (by omega), ih hm (by omega)]

/-- In canonical form, no address below the first entry's holds anything. -/
theorem Memory.head_le_of_get_ne {k a : Nat} {v : Byte} {m : Memory} (h : Memory.wf ((k, v) :: m) = true)
    (ha : Memory.get ((k, v) :: m) a ≠ Config.unlistedByte) : k ≤ a := by
  obtain ⟨-, -, hm, -⟩ := Memory.wf_cons.mp h
  by_contra hlt
  rw [Memory.get_cons, if_neg (by omega), Memory.get_eq_unlistedByte_of_risingFrom hm (by omega)] at ha
  exact ha rfl

/-- In canonical form, the first entry is not what an unlisted address reads as. -/
theorem Memory.get_head_ne {k : Nat} {v : Byte} {m : Memory} (h : Memory.wf ((k, v) :: m) = true) :
    Memory.get ((k, v) :: m) k ≠ Config.unlistedByte := by
  obtain ⟨-, hv, -, -⟩ := Memory.wf_cons.mp h
  rwa [Memory.get_cons, if_pos rfl]

/-- Memories in canonical form that read alike are equal: neither first entry can lie below the other, so the two are
the same entry, and what follows it reads alike too. -/
theorem Memory.eq_of_get_eq {m m' : Memory} (hm : m.wf = true) (hm' : m'.wf = true)
    (hget : ∀ a < 256, m.get a = m'.get a) : m = m' := by
  induction m generalizing m' with
  | nil =>
    cases m' with
    | nil => rfl
    | cons cell' m' => exact absurd (hget _ (Memory.wf_cons.mp hm').1).symm (Memory.get_head_ne hm')
  | cons cell m ih =>
    obtain ⟨k, v⟩ := cell
    obtain ⟨hk, -, hrise, hwf⟩ := Memory.wf_cons.mp hm
    cases m' with
    | nil => exact absurd (hget k hk) (Memory.get_head_ne hm)
    | cons cell' m' =>
      obtain ⟨k', v'⟩ := cell'
      obtain ⟨hk', -, hrise', hwf'⟩ := Memory.wf_cons.mp hm'
      have hle : k ≤ k' := Memory.head_le_of_get_ne hm (hget k' hk' ▸ Memory.get_head_ne hm')
      have hle' : k' ≤ k := Memory.head_le_of_get_ne hm' (hget k hk ▸ Memory.get_head_ne hm)
      obtain rfl : k = k' := Nat.le_antisymm hle hle'
      have hv : v = v' := by simpa [Memory.get_cons] using hget k hk
      have htail : m = m' := ih hwf hwf' fun a ha => by
        by_cases hak : a ≤ k
        · rw [Memory.get_eq_unlistedByte_of_risingFrom hrise hak,
            Memory.get_eq_unlistedByte_of_risingFrom hrise' hak]
        · simpa [Memory.get_cons, show k ≠ a by omega] using hget a ha
      rw [hv, htail]

/-! ## The invariant -/

theorem State.wf_iff : s.wf = true ↔
    s.mem.wf = true ∧ (s.refused = true → s.mode = .idle) ∧ (s.halted = true → s.mode = .idle) := by
  simp [State.wf, and_assoc, imp_iff_not_or]

/-- Of an Idle machine the invariant asks for nothing but its memory. -/
theorem State.wf_of_idle (hmode : s.mode = .idle) (hmem : s.mem.wf = true) : s.wf = true :=
  State.wf_iff.mpr ⟨hmem, fun _ => hmode, fun _ => hmode⟩

/-- A machine that is neither refused nor halted may be in either mode. -/
theorem State.wf_of_not_refused_not_halted (hmem : s.mem.wf = true) (hr : s.refused = false)
    (hh : s.halted = false) : s.wf = true :=
  State.wf_iff.mpr ⟨hmem, fun h => by simp [hr] at h, fun h => by simp [hh] at h⟩

/-- Execution keeps the invariant: a store keeps the canonical form, and an instruction that sets `halted` or `refused`
leaves the machine Idle. -/
theorem exec_keeps_wf (hwf : s.wf = true) (h : exec i s = .next t) : t.wf = true := by
  obtain ⟨hmem, hrefused, hhalted⟩ := State.wf_iff.mp hwf
  rcases exec_inv h with ⟨r, v, -, -, rfl⟩ | ⟨a, v, -, -, rfl⟩ | ⟨r, xy, -, ⟨-, rfl⟩ | ⟨-, rfl⟩⟩ |
    ⟨r, xy, -, ⟨-, rfl⟩ | ⟨-, rfl⟩⟩ | ⟨-, rfl⟩ | ⟨-, rfl⟩
  case inr.inl => exact State.wf_iff.mpr ⟨writeMem_mem_wf s a v hmem, hrefused, hhalted⟩
  case inr.inr.inr.inr.inl => exact State.wf_of_idle rfl hmem
  case inr.inr.inr.inr.inr => exact State.wf_of_idle rfl hmem
  all_goals exact hwf

/-- A transition of an Idle machine keeps the invariant: a host control leaves it Idle, a run starts with both flags
clear, and a single step ends Idle. -/
theorem whileIdle_keeps_wf {act : HostAction} (hmode : s.mode = .idle) (hwf : s.wf = true)
    (h : whileIdle act s = .next t) : t.wf = true := by
  obtain ⟨hmem, -, -⟩ := State.wf_iff.mp hwf
  rcases whileIdle_inv h with ⟨⟨regs, mem, pc, events, rfl⟩, hkeeps⟩ | ⟨-, hr, rfl⟩ | ⟨b, u, -, hr, hu, rfl⟩
  · exact State.wf_of_idle hmode (hkeeps hmem)
  · exact State.wf_of_not_refused_not_halted hmem hr rfl
  · have hbegun : (fetch (beginSingleStep s)).wf = true := State.wf_of_not_refused_not_halted hmem hr rfl
    obtain ⟨humem, -, -⟩ := State.wf_iff.mp (exec_keeps_wf hbegun hu)
    exact State.wf_of_idle rfl humem

/-- A transition of a Running machine keeps the invariant: the run ends Idle, or one instruction is executed. -/
theorem whileRunning_keeps_wf {act : HostAction} (hwf : s.wf = true) (h : whileRunning act s = .next t) :
    t.wf = true := by
  obtain ⟨hmem, -, -⟩ := State.wf_iff.mp hwf
  rcases whileRunning_inv h with ⟨-, rfl | rfl⟩ | ⟨-, -, u, hu, hend⟩
  · exact State.wf_of_idle rfl hmem
  · exact State.wf_of_idle rfl hmem
  · have hfetched : (fetch s).wf = true := hwf
    have huwf : u.wf = true := exec_keeps_wf hfetched hu
    obtain ⟨-, rfl⟩ | ⟨-, rfl⟩ := hend <;> exact huwf

/-! ## A store and the fetch after it -/

/-- A step of a run that goes on is the execution of the fetched word. -/
theorem step_of_runsOn (h : s.runsOn) : step s = exec (decode s.fetchWord) (fetch (beginTransition s)) := by
  obtain ⟨hmode, hstop, hrefused, hact⟩ := h
  rw [step_of_running hmode, hact, whileRunning, runPass, beginTransition_stopRequested, hstop, cycle,
    beginTransition_refused, hrefused]
  rfl

/-- Both store forms: the instruction writes its source register to the address it names. -/
theorem storeAddr_and_exec_of_store {r : Reg} {a : Byte}
    (h : i = .directStore r a ∨ ∃ c, i = .indirectStore r c ∧ s.readReg c = a) :
    storeAddr i s = some a ∧ exec i s = .next (s.writeMem a (s.readReg r)) := by
  obtain rfl | ⟨c, rfl, rfl⟩ := h <;> exact ⟨rfl, rfl⟩

/-- The state between two steps of a run, the first of which stored `v` at `a`. -/
def afterStore (a v : Byte) (s : State) : State := (fetch (beginTransition s)).writeMem a v

theorem afterStore_runsOn (a v : Byte) (h : s.runsOn)
    (hnext : nextHostAction { s with hostScript := s.hostScript.tail } = .pass) : (afterStore a v s).runsOn := by
  obtain ⟨hmode, hstop, hrefused, -⟩ := h
  exact ⟨hmode, hstop, hrefused, hnext⟩

/-- What is fetched after a store: the bytes at `pc + 2` and `pc + 3`, the one stored to read as stored. -/
theorem afterStore_fetchWord (a v : Byte) (s : State) : (afterStore a v s).fetchWord =
    (if s.pc + 2#8 = a then v else s.readMem (s.pc + 2#8)) ++
      (if s.pc + 3#8 = a then v else s.readMem (s.pc + 3#8)) := by
  have hpc : (afterStore a v s).pc = s.pc + 2#8 := rfl
  have hpc1 : s.pc + 2#8 + 1#8 = s.pc + 3#8 := BitVec.add_assoc s.pc 2#8 1#8
  rw [State.fetchWord, hpc, hpc1, afterStore, readMem_writeMem, readMem_writeMem]
  rfl

/-- In a run that goes on, a step that stores has the state `afterStore`, and the step after it fetches from there. -/
theorem step_step_of_store {r : Reg} {a : Byte} (h : s.runsOn)
    (hnext : nextHostAction { s with hostScript := s.hostScript.tail } = .pass)
    (hstore : decode s.fetchWord = .directStore r a ∨
      ∃ c, decode s.fetchWord = .indirectStore r c ∧ s.readReg c = a) :
    step s = .next (afterStore a (s.readReg r) s) ∧
      ∃ u, step (afterStore a (s.readReg r) s) = .next u ∧ u.ir = (afterStore a (s.readReg r) s).fetchWord := by
  obtain ⟨-, hexec⟩ := storeAddr_and_exec_of_store (s := fetch (beginTransition s)) hstore
  obtain ⟨u, hu⟩ := exec_total (decode (afterStore a (s.readReg r) s).fetchWord)
    (fetch (beginTransition (afterStore a (s.readReg r) s)))
  exact ⟨(step_of_runsOn h).trans hexec, u,
    (step_of_runsOn (afterStore_runsOn a (s.readReg r) h hnext)).trans hu, exec_ir hu⟩

/-! ## The obligations -/

/-- Settles O9: by the mode the machine is in, from what `exec` keeps. -/
theorem stepKeepsWellFormed : Obligations.StepKeepsWellFormed := by
  intro s t hwf h
  have hbegun : (beginTransition s).wf = true := hwf
  cases hmode : s.mode with
  | idle => exact whileIdle_keeps_wf (s := beginTransition s) hmode hbegun ((step_of_idle hmode).symm.trans h)
  | running => exact whileRunning_keeps_wf hbegun ((step_of_running hmode).symm.trans h)

/-- Settles O19: the second step fetches from the state that the store left. -/
theorem storeIsSeenByTheNextFetch : Obligations.StoreIsSeenByTheNextFetch := by
  intro s r a h hnext hstore
  obtain ⟨hs, u, hu, hir⟩ := step_step_of_store h hnext hstore
  have hne : s.pc + 2#8 ≠ s.pc + 3#8 := by simp
  rw [afterStore_fetchWord] at hir
  refine ⟨_, u, hs, hu, (storeAddr_and_exec_of_store hstore).1, rfl, ?_, ?_, ?_, ?_⟩
  · rw [afterStore, readMem_writeMem, if_pos rfl]
  · rintro rfl
    rw [hir, if_pos rfl, if_neg hne.symm]
  · rintro rfl
    rw [hir, if_neg hne, if_pos rfl]
  · intro h2 h3
    rw [hir, if_neg h2.symm, if_neg h3.symm]

/-- Settles O22: equality at the 256 addresses as bytes is equality at the natural numbers below 256. -/
theorem canonicalMemoriesThatReadAlikeAreEqual : Obligations.CanonicalMemoriesThatReadAlikeAreEqual :=
  fun _ _ hm hm' hget => Memory.eq_of_get_eq hm hm' fun a ha => by
    simpa [Nat.mod_eq_of_lt ha] using hget (BitVec.ofNat 8 a)

/-- Settles O21: the write's frame, and the reads after one and after two equal writes. -/
theorem memoryWriteSetsOnlyItsCell : Obligations.MemoryWriteSetsOnlyItsCell := by
  refine fun s a v => ⟨?_, onlyCellWritten_writeMem s a v, fun b => ?_, writeMem_mem_wf s a v⟩
  · rw [readMem_writeMem, if_pos rfl]
  · by_cases hb : b = a
    · simp only [readMem_writeMem, if_pos hb]
    · rw [readMem_writeMem _ a b v, if_neg hb]

end Sys2Proof.Machine

/-! Proofs about the encoding (30_encoding.md): the opcode rows as a table from nibbles to instructions, that decoding
and encoding undo each other up to the ignored bits, and what the unassigned opcode does. -/

namespace Sys2Proof

/-! ## The rows of the opcode map -/

/-- The instruction of an opcode's row with operand nibbles `a`, `b`, `c` (R82, R84). -/
def Opcode.row (op : Opcode) (a b c : Nibble) : Instr :=
  match op with
  | .directLoad => .directLoad a.toFin (b ++ c)
  | .immediateLoad => .immediateLoad a.toFin (b ++ c)
  | .directStore => .directStore a.toFin (b ++ c)
  | .move => .move b.toFin c.toFin
  | .integerAdd => .integerAdd a.toFin b.toFin c.toFin
  | .floatingPointAdd => .floatingPointAdd a.toFin b.toFin c.toFin
  | .or => .or a.toFin b.toFin c.toFin
  | .and => .and a.toFin b.toFin c.toFin
  | .xor => .xor a.toFin b.toFin c.toFin
  | .ror => .ror a.toFin c.toNat
  | .jumpEqual => .jumpEqual a.toFin (b ++ c)
  | .halt => .halt
  | .indirectLoad => .indirectLoad b.toFin c.toFin
  | .indirectStore => .indirectStore b.toFin c.toFin
  | .jumpLessEqual => .jumpLessEqual a.toFin (b ++ c)

@[simp] theorem xyField_wordNibbles (op a b c : Nibble) : xyField (wordNibbles op a b c) = b ++ c := by
  rw [xyField_eq, bField_wordNibbles, cField_wordNibbles]

theorem decode_wordNibbles (op : Opcode) (a b c : Nibble) :
    decode (wordNibbles op.nibble a b c) = op.row a b c := by
  rw [decode, opField_wordNibbles, opcodeMap_nibble]
  cases op <;> simp [Opcode.row, regOfNibble, moveSrcField, moveDstField]

theorem decode_wordNibbles_zero (a b c : Nibble) : decode (wordNibbles 0x0#4 a b c) = .unassignedOpcode0 := by
  rw [decode, opField_wordNibbles]; rfl

/-- An opcode nibble is 0 or that of an operation. -/
theorem eq_zero_or_eq_nibble (n : Nibble) : n = 0x0#4 ∨ ∃ op : Opcode, n = op.nibble := by
  have inverse : ∀ n : Nibble, n = 0x0#4 ∨ (opcodeMap n).map Opcode.nibble = some n := by decide
  obtain h | h := inverse n
  · exact .inl h
  · obtain ⟨op, -, hop⟩ := Option.map_eq_some_iff.mp h
    exact .inr ⟨op, hop.symm⟩

/-- Every word is four nibbles, the first of them 0 or that of an operation. -/
theorem wordNibbles_cases (w : Word) :
    (∃ a b c, w = wordNibbles 0x0#4 a b c) ∨ ∃ (op : Opcode) (a b c : Nibble), w = wordNibbles op.nibble a b c := by
  obtain h | ⟨op, h⟩ := eq_zero_or_eq_nibble (opField w)
  · exact .inl ⟨_, _, _, h ▸ (wordNibbles_fields w).symm⟩
  · exact .inr ⟨op, _, _, _, h ▸ (wordNibbles_fields w).symm⟩

theorem Opcode.row_wellFormed (op : Opcode) (a b c : Nibble) : (op.row a b c).wellFormed = true := by
  cases op with
  | ror => exact decide_eq_true c.isLt
  | _ => rfl

theorem decode_wellFormed (w : Word) : (decode w).wellFormed = true := by
  obtain ⟨a, b, c, rfl⟩ | ⟨op, a, b, c, rfl⟩ := wordNibbles_cases w
  · rw [decode_wordNibbles_zero]; rfl
  · rw [decode_wordNibbles]; exact op.row_wellFormed a b c

/-! ## Ignored bits (R87) -/

/-- A word of four nibbles with those a format ignores written as 0. -/
def Format.cleared (f : Format) (op a b c : Nibble) : Word :=
  match f with
  | .rxy | .rst => wordNibbles op a b c
  | .zrs => wordNibbles op 0x0#4 b c
  | .r0n => wordNibbles op a 0x0#4 c
  | .n => wordNibbles op 0x0#4 0x0#4 0x0#4

theorem wordNibbles_and_not_ignoredBits (f : Format) (op a b c : Nibble) :
    wordNibbles op a b c &&& ~~~f.ignoredBits = f.cleared op a b c := by
  have mask : ~~~f.ignoredBits = f.cleared 0xF#4 0xF#4 0xF#4 0xF#4 := by cases f <;> decide
  have kept (n : Nibble) : n &&& 0xF#4 = n := BitVec.and_allOnes
  rw [mask]
  cases f <;> simp [Format.cleared, wordNibbles_and, kept]

theorem ignoredBits_wordNibbles_zero (a b c : Nibble) :
    ignoredBits (wordNibbles 0x0#4 a b c) = Format.n.ignoredBits := by
  rw [ignoredBits, opField_wordNibbles]; rfl

theorem ignoredBits_congr {v w : Word} (h : opField v = opField w) : ignoredBits v = ignoredBits w := by
  rw [ignoredBits, ignoredBits, h]

/-- Only operand bits are ignored, so clearing the bits that `w` ignores leaves any word's opcode. -/
theorem opField_and_not_ignoredBits (v w : Word) : opField (v &&& ~~~(ignoredBits w)) = opField v := by
  have hmask : opField (~~~(ignoredBits w)) = BitVec.allOnes 4 := by
    unfold ignoredBits
    cases opcodeMap (opField w) with
    | none => rfl
    | some op => cases op <;> rfl
  calc opField (v &&& ~~~(ignoredBits w))
      _ = opField v &&& opField (~~~(ignoredBits w)) := BitVec.extractLsb'_and
      _ = opField v := by rw [hmask, BitVec.and_allOnes]

/-! ## Decode and encode -/

theorem decode_encode {i : Instr} (h : i.wellFormed = true) : decode (encode i) = i := by
  cases i with
  | ror r n =>
    have hn : n < 16 := of_decide_eq_true h
    simp [encode, decode, hn]
  | unassignedOpcode0 => rfl
  | _ => simp [encode, decode, moveSrcField, moveDstField]

theorem decodeBytes_encodeBytes_append (i : Instr) (rest : List Byte) :
    decodeBytes (encodeBytes i ++ rest) = .ok (decode (encode i), rest) := by
  simp [encodeBytes, decodeBytes]

theorem encode_row (op : Opcode) (a b c : Nibble) :
    encode (op.row a b c) = op.format.cleared op.nibble a b c := by
  cases op with
  | directLoad | immediateLoad | directStore | jumpEqual | jumpLessEqual => exact wordRXY_eq _ _ b c
  | ror => simp [Opcode.row, encode, Opcode.format, Format.cleared, nibbleOfReg]
  | _ => rfl

theorem encode_decode (w : Word) : encode (decode w) = w &&& ~~~(ignoredBits w) := by
  obtain ⟨a, b, c, rfl⟩ | ⟨op, a, b, c, rfl⟩ := wordNibbles_cases w
  · rw [decode_wordNibbles_zero, ignoredBits_wordNibbles_zero, wordNibbles_and_not_ignoredBits]; rfl
  · rw [decode_wordNibbles, ignoredBits_wordNibbles, encode_row,
      wordNibbles_and_not_ignoredBits]

theorem decodeBytes_eq_truncated_iff (bytes : List Byte) :
    decodeBytes bytes = .error .truncated ↔ bytes.length < 2 := by
  match bytes with
  | [] => simp [decodeBytes]
  | [_] => simp [decodeBytes]
  | _ :: _ :: _ => simp [decodeBytes]

/-! ## The obligations about the encoding -/

/-- Settles O3: the two bytes are the encoded word, and decoding it gives the instruction back. -/
theorem decodeOfEncodeIsTheInstruction : Obligations.DecodeOfEncodeIsTheInstruction := by
  intro i rest h
  rw [decodeBytes_encodeBytes_append, decode_encode h]

/-- Settles O4: row by row of the opcode map. -/
theorem encodeOfDecodeClearsIgnoredBits : Obligations.EncodeOfDecodeClearsIgnoredBits := encode_decode

/-- Settles O5: both words have the same opcode, so the same bits are ignored in them, and what is left of them, which is
the encoding of what each decodes to, is the same. -/
theorem ignoredBitsDoNotAffectDecoding : Obligations.IgnoredBitsDoNotAffectDecoding := by
  intro w v h
  have hop : opField v = opField w := by
    rw [← opField_and_not_ignoredBits v w, ← h, opField_and_not_ignoredBits]
  calc decode v
      _ = decode (encode (decode v)) := (decode_encode (decode_wellFormed v)).symm
      _ = decode (encode (decode w)) := by rw [encode_decode, encode_decode, ignoredBits_congr hop, h]
      _ = decode w := decode_encode (decode_wellFormed w)

/-- Settles O1: each row is `Opcode.row`, and the last is the unassigned one. -/
theorem decodeReadsEveryTableRow : Obligations.DecodeReadsEveryTableRow := fun a b c =>
  ⟨decode_wordNibbles .directLoad a b c, decode_wordNibbles .immediateLoad a b c,
    decode_wordNibbles .directStore a b c, decode_wordNibbles .move a b c,
    decode_wordNibbles .integerAdd a b c, decode_wordNibbles .floatingPointAdd a b c,
    decode_wordNibbles .or a b c, decode_wordNibbles .and a b c, decode_wordNibbles .xor a b c,
    decode_wordNibbles .ror a b c, decode_wordNibbles .jumpEqual a b c, decode_wordNibbles .halt a b c,
    decode_wordNibbles .indirectLoad a b c, decode_wordNibbles .indirectStore a b c,
    decode_wordNibbles .jumpLessEqual a b c, decode_wordNibbles_zero a b c⟩

/-- Settles O2: each word's row, evaluated. -/
theorem writtenOutWordsDecode : Obligations.WrittenOutWordsDecode := by
  unfold Obligations.WrittenOutWordsDecode; decide

/-- Settles O6: every row's instruction is well-formed, and two bytes are enough. -/
theorem decodingIsTotalAndWellFormed : Obligations.DecodingIsTotalAndWellFormed :=
  ⟨decode_wellFormed, decodeBytes_eq_truncated_iff⟩

/-- Settles O39: the next state is the refused one. -/
theorem unassignedOpcodeRefuses : Obligations.UnassignedOpcodeRefuses := fun s =>
  ⟨s.refuse, rfl, rfl, rfl, rfl, rfl, rfl, Machine.sameRegsBut_of_regs_eq rfl none,
    Machine.sameMemBut_of_mem_eq rfl none, rfl, rfl, rfl⟩

end Sys2Proof

/-! Proofs about the assembler (30_encoding.md section 6): what a rotate count may be, and the buffer of 256 bytes. -/

namespace Sys2Proof.Assembler

@[simp] theorem Result.andThen_ok {α β : Type} (a : α) (f : α → Result β) : (Result.ok a).andThen f = f a := rfl

@[simp] theorem Result.andThen_fails {α β : Type} (e : AsmError) (f : α → Result β) :
    (Result.fails e).andThen f = .fails e := rfl

theorem Result.andThen_eq_ok {α β : Type} {x : Result α} {f : α → Result β} {b : β} :
    x.andThen f = .ok b ↔ ∃ a, x = .ok a ∧ f a = .ok b := by
  cases x <;> simp

/-! ## Register and count tokens (R93, R95, R100) -/

theorem registerToken_of_register {tok : Text} {r : Reg} (h : register tok = some r) : registerToken tok = .ok r := by
  rw [registerToken, h]

theorem numericToken_of_numeric {tok : Text} {v : Int} (h : numeric tok = some v) :
    numericToken tok = literalByte v := by
  rw [numericToken, h]

theorem numericToken_of_numeric_none {tok : Text} (h : numeric tok = none) :
    numericToken tok = .fails .operandSyntax := by
  rw [numericToken, h]

theorem literalByte_of_mem_range {v : Int} (hlo : -128 ≤ v) (hhi : v ≤ 255) :
    literalByte v = .ok (BitVec.ofInt 8 v) := if_pos ⟨hlo, hhi⟩

theorem literalByte_of_not_mem_range {v : Int} (h : v < -128 ∨ 255 < v) :
    literalByte v = .fails .operandSyntax := if_neg (by omega)

theorem toNat_ofInt_of_nonneg {v : Int} (hlo : 0 ≤ v) (hhi : v ≤ 255) : (BitVec.ofInt 8 v).toNat = v.toNat := by
  rw [BitVec.toNat_ofInt]; omega

/-- The two's complement of a negative literal has its top bit set. -/
theorem le_toNat_ofInt_of_neg {v : Int} (hlo : -128 ≤ v) (hhi : v < 0) : 128 ≤ (BitVec.ofInt 8 v).toNat := by
  rw [BitVec.toNat_ofInt]; omega

theorem encodeRor_of_register {reg count : Text} {r : Reg} (h : register reg = some r) :
    encodeRor [reg, count] = (numericToken count).andThen fun n =>
      if n.toNat < 16 then .ok (emitInstr (.ror r n.toNat)) else .fails .outOfRangeImmediate := by
  rw [encodeRor, registerToken_of_register h, Result.andThen_ok]

/-! ## The buffer (R103) -/

/-- Every write of the buffer is at an address of the machine's memory. -/
def AsmState.InBounds (st : AsmState) : Prop := ∀ write ∈ st.buffer, write.1 < 256

variable {st st' : AsmState}

theorem emitSlots_inBounds {slots : List Slot} (hst : st.InBounds) (h : emitSlots slots st = .ok st') :
    st'.InBounds := by
  induction slots generalizing st with
  | nil => cases h; exact hst
  | cons slot slots ih =>
    rw [emitSlots] at h
    split at h
    next hcursor =>
      refine ih ?_ h
      exact List.forall_mem_cons.mpr ⟨hcursor, hst⟩
    next => cases h

theorem applyEffect_inBounds {effect : Effect} (hst : st.InBounds) (h : applyEffect st effect = .ok st') :
    st'.InBounds := by
  cases effect with
  | emit slots => exact emitSlots_inBounds hst h
  | setCursor n => cases h; exact hst

theorem defineLabel_inBounds (hst : st.InBounds) (label : Option Text) : (defineLabel st label).InBounds := by
  cases label <;> exact hst

theorem assembleStatement_inBounds {line : Text} (hst : st.InBounds) (h : assembleStatement st line = .ok st') :
    st'.InBounds := by
  unfold assembleStatement at h
  split at h
  next => cases h; exact hst
  next =>
    split at h
    next =>
      obtain ⟨effect, -, heffect⟩ := Result.andThen_eq_ok.mp h
      exact applyEffect_inBounds hst heffect
    next => cases h

theorem assembleLine_inBounds {line : Text} (hst : st.InBounds) (h : assembleLine st line = .ok st') :
    st'.InBounds := by
  obtain ⟨⟨label, rest⟩, -, hrest⟩ := Result.andThen_eq_ok.mp h
  exact assembleStatement_inBounds (defineLabel_inBounds hst label) hrest

theorem assembleLines_inBounds {lines : List Text} (hst : st.InBounds) (h : assembleLines lines st = .ok st') :
    st'.InBounds := by
  induction lines generalizing st with
  | nil => cases h; exact hst
  | cons line lines ih =>
    obtain ⟨next, hnext, hrest⟩ := Result.andThen_eq_ok.mp h
    exact ih (assembleLine_inBounds hst hnext) hrest

theorem start_inBounds : AsmState.start.InBounds := List.forall_mem_nil _

/-! ## Finalisation (R103) -/

/-- Resolving gives each write its value and keeps its address. -/
theorem resolveAll_addresses {syms : Symbols} {buffer : List (Nat × Slot)} {writes : List (Nat × Byte)}
    (h : resolveAll syms buffer = .ok writes) : writes.map Prod.fst = buffer.map Prod.fst := by
  induction buffer generalizing writes with
  | nil => cases h; rfl
  | cons write buffer ih =>
    obtain ⟨b, -, h⟩ := Result.andThen_eq_ok.mp h
    obtain ⟨rest, hrest, h⟩ := Result.andThen_eq_ok.mp h
    cases h
    rw [List.map_cons, List.map_cons, ih hrest]

theorem highWater_le_iff {n : Nat} {writes : List (Nat × Byte)} :
    highWater writes ≤ n ↔ ∀ a ∈ writes.map Prod.fst, a < n := by
  induction writes with
  | nil => simp [highWater]
  | cons write writes ih =>
    rw [highWater, max_le_iff, ih, List.map_cons, List.forall_mem_cons, Nat.succ_le_iff]

theorem bufferBytes_length (writes : List (Nat × Byte)) : (bufferBytes writes).length = highWater writes := by
  simp [bufferBytes]

/-- An odd end is padded with one byte. -/
theorem inPairs_length (bytes : List Byte) : (inPairs bytes).length = (bytes.length + 1) / 2 := by
  induction bytes using inPairs.induct with
  | case1 => rfl
  | case2 b => simp [inPairs]
  | case3 b1 b2 bytes ih => simp only [inPairs, List.length_cons, ih]; omega

theorem finalise_fits {image : List (Byte × Byte)} (hst : st.InBounds) (h : finalise st = .ok image) :
    Machine.imageFits image = true := by
  obtain ⟨writes, hwrites, h⟩ := Result.andThen_eq_ok.mp h
  cases h
  have hmark : highWater writes ≤ 256 := by
    rw [highWater_le_iff, resolveAll_addresses hwrites]
    exact List.forall_mem_map.mpr hst
  rw [Machine.imageFits_iff, inPairs_length, bufferBytes_length]
  omega

/-! ## The obligations about the assembler -/

/-- Settles O58: of the literals that are bytes, only those of the first range have a byte below 16. -/
theorem rorAssemblesOnlyCountsBelow16 : Obligations.RorAssemblesOnlyCountsBelow16 := by
  intro r reg count hreg
  rw [encodeRor_of_register hreg]
  refine ⟨fun v hv => ?_, fun hnone => by rw [numericToken_of_numeric_none hnone, Result.andThen_fails]⟩
  rw [numericToken_of_numeric hv]
  refine ⟨fun hlo hhi => ?_, fun hlo hhi => ?_, fun hlo hhi => ?_, fun hout => ?_⟩
  · rw [literalByte_of_mem_range (by omega) (by omega), Result.andThen_ok,
      toNat_ofInt_of_nonneg hlo (by omega), if_pos (by omega)]
  · rw [literalByte_of_mem_range (by omega) hhi, Result.andThen_ok,
      toNat_ofInt_of_nonneg (by omega) hhi, if_neg (by omega)]
  · have hbyte := le_toNat_ofInt_of_neg hlo hhi
    rw [literalByte_of_mem_range hlo (by omega), Result.andThen_ok, if_neg (by omega)]
  · rw [literalByte_of_not_mem_range hout, Result.andThen_fails]

/-- Settles O59: no line writes past the buffer's end, so the buffer that is paired has at most 256 bytes. -/
theorem assembledProgramsFitMemory : Obligations.AssembledProgramsFitMemory := by
  intro source image h
  obtain ⟨st, hlines, hfinal⟩ := Result.andThen_eq_ok.mp h
  exact finalise_fits (assembleLines_inBounds start_inBounds hlines) hfinal

/-- Settles O57: the token `R0` names register 0, so both read the address token for the same instruction. -/
theorem jmpAssemblesAsJmpeqR0 : Obligations.JmpAssemblesAsJmpeqR0 := by
  intro syms tok
  have hR0 : registerToken ['R', '0'] = .ok 0 := registerToken_of_register (by decide)
  rw [encodeStatement, encodeStatement, encodeJmp, registerAndAddress, hR0, Result.andThen_ok]

end Sys2Proof.Assembler

/-! Proofs about the cycle (40_cycle.md): what the fetch and one step of a run do, which events they leave, how the host
drives steps and stops them, and how a run ends. -/

namespace Sys2Proof.Machine

variable {i : Instr} {s t : State} {act : HostAction}

/-! ## The one write of an executed instruction, with its event -/

@[simp] theorem storeAddr_fetch_beginTransition (i : Instr) (s : State) :
    storeAddr i (fetch (beginTransition s)) = storeAddr i s := storeAddr_congr rfl

@[simp] theorem takenTarget_fetch_beginTransition (i : Instr) (s : State) :
    takenTarget i (fetch (beginTransition s)) = takenTarget i s := takenTarget_congr rfl

theorem exec_onlyRegWritten {r : Reg} (h : exec i s = .next t) (hd : destReg i = some r) : onlyRegWritten r s t := by
  rcases exec_inv h with ⟨r', v, hd', -, rfl⟩ | ⟨a, v, hd', -, -⟩ | ⟨r', xy, rfl, -⟩ | ⟨r', xy, rfl, -⟩ |
    ⟨rfl, -⟩ | ⟨rfl, -⟩
  · cases hd.symm.trans hd'
    exact onlyRegWritten_writeReg s r v
  · cases hd.symm.trans hd'
  all_goals cases hd

theorem exec_onlyCellWritten {a : Byte} (h : exec i s = .next t) (ha : storeAddr i s = some a) :
    onlyCellWritten a s t := by
  rcases exec_inv h with ⟨r, v, -, ha', -⟩ | ⟨a', v, -, ha', rfl⟩ | ⟨r, xy, rfl, -⟩ | ⟨r, xy, rfl, -⟩ |
    ⟨rfl, -⟩ | ⟨rfl, -⟩
  · cases ha.symm.trans ha'
  · cases ha.symm.trans ha'
    exact onlyCellWritten_writeMem s a v
  all_goals cases ha

/-- An instruction that names no register, no cell and no taken branch writes nothing but the control state. -/
theorem exec_nothingWritten (h : exec i s = .next t) (hd : destReg i = none) (ha : storeAddr i s = none)
    (hb : takenTarget i s = none) : nothingWritten s t := by
  refine ⟨hd ▸ exec_sameRegsBut h, ha ▸ exec_sameMemBut h, exec_pc_of_takenTarget_eq_none h hb, exec_ir h, ?_⟩
  rcases exec_inv h with ⟨r, v, hd', -, -⟩ | ⟨a, v, -, ha', -⟩ | ⟨r, xy, rfl, ⟨hc, -⟩ | ⟨-, rfl⟩⟩ |
    ⟨r, xy, rfl, ⟨hc, -⟩ | ⟨-, rfl⟩⟩ | ⟨-, rfl⟩ | ⟨-, rfl⟩
  · cases hd.symm.trans hd'
  · cases ha.symm.trans ha'
  case inr.inr.inl.inl => simp [takenTarget, hc] at hb
  case inr.inr.inr.inl.inl => simp [takenTarget, (leCondition_iff _ _).mp hc] at hb
  all_goals rfl

/-! ## The control state after an executed instruction -/

/-- Execution keeps the mode and the flags, or it is a Halt or the refusal. -/
theorem exec_keeps_flags_or_ends (h : exec i s = .next t) :
    (t.mode = s.mode ∧ t.halted = s.halted ∧ t.refused = s.refused) ∨
    (i = .halt ∧ t = s.halt) ∨ (i = .unassignedOpcode0 ∧ t = s.refuse) := by
  rcases exec_inv h with ⟨r, v, -, -, rfl⟩ | ⟨a, v, -, -, rfl⟩ | ⟨r, xy, -, ⟨-, rfl⟩ | ⟨-, rfl⟩⟩ |
    ⟨r, xy, -, ⟨-, rfl⟩ | ⟨-, rfl⟩⟩ | hhalt | hrefuse
  case inr.inr.inr.inr.inl => exact .inr (.inl hhalt)
  case inr.inr.inr.inr.inr => exact .inr (.inr hrefuse)
  all_goals exact .inl ⟨rfl, rfl, rfl⟩

/-- Only Halt sets `halted`. -/
theorem exec_halted_iff (h : exec i s = .next t) (hs : s.halted = false) : t.halted = true ↔ i = .halt := by
  constructor
  · intro ht
    rcases exec_keeps_flags_or_ends h with ⟨-, hkept, -⟩ | ⟨hi, -⟩ | ⟨-, rfl⟩
    · simp [hkept, hs] at ht
    · exact hi
    · simp [hs] at ht
  · rintro rfl
    cases h
    rfl

/-! ## Transitions of an Idle machine -/

/-- An Idle machine does what the first entry of the host's script says. -/
theorem step_of_idle_of_hostScript {rest : List HostAction} (hmode : s.mode = .idle)
    (hscript : s.hostScript = act :: rest) :
    step s = whileIdle act { s with events := [], hostScript := rest } := by
  rw [step_of_idle hmode, nextHostAction, beginTransition, hscript]
  rfl

theorem cycle_of_refused (h : s.refused = true) : cycle s = .refused .machineRefused := if_pos h

theorem beginRun_of_refused (h : s.refused = true) : beginRun s = .refused .machineRefused := if_pos h

theorem singleStep_of_refused (b : Bool) (h : s.refused = true) : singleStep b s = .refused .machineRefused := by
  rw [singleStep, cycle_of_refused (s := beginSingleStep s) h]
  rfl

/-! ## Transitions of a Running machine -/

theorem admittedDuringRun_iff :
    act.admittedDuringRun = true ↔ act = .pass ∨ act = .stop ∨ act = .stopMidStep := by
  cases act <;> simp [HostAction.admittedDuringRun]

theorem nextHostAction_admitted (h : ∀ act ∈ s.hostScript, act.admittedDuringRun = true) :
    (nextHostAction s).admittedDuringRun = true := by
  rw [nextHostAction]
  cases hscript : s.hostScript with
  | nil => rfl
  | cons act rest => exact h act (by simp [hscript])

theorem requestStop_of_stopRequested (h : s.stopRequested = true) : requestStop s = s := by
  rw [requestStop, ← h]

/-- A stop request on record ends the run, whatever admitted thing the host does meanwhile (R136). -/
theorem step_of_stopRequested (hmode : s.mode = .running) (hstop : s.stopRequested = true)
    (hact : (nextHostAction s).admittedDuringRun = true) : step s = .next (endRun (beginTransition s)) := by
  have hpass : runPass (beginTransition s) = .next (endRun (beginTransition s)) := runPass_next.mpr (.inl ⟨hstop, rfl⟩)
  rw [step_of_running hmode]
  rcases admittedDuringRun_iff.mp hact with hact | hact | hact <;> rw [hact, whileRunning]
  · exact hpass
  · rw [requestStop_of_stopRequested (s := beginTransition s) hstop, hpass]
  · rw [hpass, andThen, requestStop_of_stopRequested (s := endRun (beginTransition s)) hstop]

/-- A stop request that arrives between instructions ends the run at once (R136). -/
theorem step_of_stop (hmode : s.mode = .running) (hact : nextHostAction s = .stop) :
    step s = .next (endRun (requestStop (beginTransition s))) := by
  rw [step_of_running hmode, hact]
  rfl

/-- A stop request that arrives while an instruction executes is put on record behind its effects (R136). -/
theorem step_of_stopMidStep (hmode : s.mode = .running) (hstop : s.stopRequested = false) (hr : s.refused = false)
    (hact : nextHostAction s = .stopMidStep)
    (ht : exec (decode s.fetchWord) (fetch (beginTransition s)) = .next t) : step s = .next (requestStop t) := by
  rw [step_of_running hmode, hact]
  exact andThen_next.mpr ⟨t, runPass_next.mpr (.inr ⟨hstop, cycle_next.mpr ⟨hr, ht⟩⟩), rfl⟩

/-! ## A run has a next state until it is over -/

/-- What a run keeps: it is not refused while it goes on, and its host only requests stops or does nothing. -/
def State.canRun (s : State) : Prop :=
  (s.mode = .running → s.refused = false) ∧ ∀ act ∈ s.hostScript, act.admittedDuringRun = true

theorem runPass_total (hr : s.refused = false) : ∃ t, runPass s = .next t := by
  cases hstop : s.stopRequested with
  | true => exact ⟨_, runPass_next.mpr (.inl ⟨hstop, rfl⟩)⟩
  | false =>
    obtain ⟨t, ht⟩ := exec_total (decode s.fetchWord) (fetch s)
    exact ⟨t, runPass_next.mpr (.inr ⟨hstop, cycle_next.mpr ⟨hr, ht⟩⟩)⟩

theorem whileRunning_total (hr : s.refused = false) (hact : act.admittedDuringRun = true) :
    ∃ t, whileRunning act s = .next t := by
  rcases admittedDuringRun_iff.mp hact with rfl | rfl | rfl
  · exact runPass_total hr
  · exact runPass_total (s := requestStop s) hr
  · obtain ⟨u, hu⟩ := runPass_total hr
    exact ⟨requestStop u, andThen_next.mpr ⟨u, hu, rfl⟩⟩

/-- An executed instruction takes the machine out of the run or leaves it not refused. -/
theorem exec_not_refused_of_running (h : exec i s = .next t) (hr : s.refused = false) :
    t.mode = .running → t.refused = false := by
  rcases exec_keeps_flags_or_ends h with ⟨-, -, hkept⟩ | ⟨-, rfl⟩ | ⟨-, rfl⟩
  · exact fun _ => hkept.trans hr
  · exact fun _ => hr
  · exact fun hmode => by simp at hmode

theorem whileRunning_keeps_canRun (hs : s.canRun) (h : whileRunning act s = .next t) : t.canRun := by
  obtain ⟨-, hscript⟩ := hs
  rcases whileRunning_inv h with ⟨-, rfl | rfl⟩ | ⟨-, hr, u, hu, hend⟩
  · exact ⟨fun hmode => by simp at hmode, hscript⟩
  · exact ⟨fun hmode => by simp at hmode, hscript⟩
  · obtain ⟨-, -, hkept⟩ := exec_keeps_ir_stopRequested_hostScript hu
    have hurun : u.canRun := ⟨exec_not_refused_of_running hu hr, hkept ▸ hscript⟩
    obtain ⟨-, rfl⟩ | ⟨-, rfl⟩ := hend <;> exact hurun

theorem step_of_canRun (hs : s.canRun) (hmode : s.mode = .running) : ∃ t, step s = .next t ∧ t.canRun := by
  obtain ⟨hr, hscript⟩ := hs
  have hbegun : (beginTransition s).canRun := ⟨hr, fun act hmem => hscript act (List.mem_of_mem_tail hmem)⟩
  obtain ⟨t, ht⟩ := whileRunning_total (s := beginTransition s) (hr hmode) (nextHostAction_admitted hscript)
  exact ⟨t, (step_of_running hmode).trans ht, whileRunning_keeps_canRun hbegun ht⟩

/-! ## Runs -/

theorem runFor_of_idle (k : Nat) (h : s.mode = .idle) : runFor k s = .next s := by
  cases k <;> simp [runFor, h]

theorem runFor_succ_of_running (k : Nat) (h : s.mode = .running) (ht : step s = .next t) :
    runFor (k + 1) s = runFor k t := by
  simp [runFor, h, ht]

/-- No run is stuck (R139, R142). -/
theorem runFor_total (k : Nat) (hs : s.canRun) : ∃ t, runFor k s = .next t := by
  induction k generalizing s with
  | zero => exact ⟨s, rfl⟩
  | succ k ih =>
    cases hmode : s.mode with
    | idle => exact ⟨s, runFor_of_idle _ hmode⟩
    | running =>
      obtain ⟨u, hu, hurun⟩ := step_of_canRun hs hmode
      rw [runFor_succ_of_running k hmode hu]
      exact ih hurun

/-- A run that is over stays where it ended. -/
theorem runFor_add_of_idle {k : Nat} (j : Nat) (h : runFor k s = .next t) (hidle : t.mode = .idle) :
    runFor (k + j) s = .next t := by
  induction k generalizing s with
  | zero =>
    cases h
    exact runFor_of_idle _ hidle
  | succ k ih =>
    rw [Nat.add_right_comm]
    cases hmode : s.mode with
    | idle => rwa [runFor_of_idle _ hmode] at h ⊢
    | running =>
      cases hstep : step s with
      | next u =>
        rw [runFor_succ_of_running _ hmode hstep] at h ⊢
        exact ih h
      | fault r => simp [runFor, hmode, hstep] at h
      | refused r => simp [runFor, hmode, hstep] at h

theorem idle_of_runEnd_eq_some {e : RunEnd} (h : s.runEnd = some e) : s.mode = .idle := by
  cases hmode : s.mode with
  | idle => rfl
  | running => simp [State.runEnd, hmode] at h

theorem exists_runEnd_of_idle (h : s.mode = .idle) : ∃ e, s.runEnd = some e := by
  simp only [State.runEnd, h]
  split
  · exact ⟨_, rfl⟩
  · split <;> exact ⟨_, rfl⟩

theorem RunEndsWith.unique {e e' : RunEnd} (h : RunEndsWith s e) (h' : RunEndsWith s e') : e' = e := by
  obtain ⟨k, t, hk, he⟩ := h
  obtain ⟨k', t', hk', he'⟩ := h'
  have hlong : runFor (k + k') s = .next t := runFor_add_of_idle k' hk (idle_of_runEnd_eq_some he)
  have hlong' : runFor (k' + k) s = .next t' := runFor_add_of_idle k hk' (idle_of_runEnd_eq_some he')
  rw [Nat.add_comm, hlong] at hlong'
  cases hlong'
  exact Option.some.inj (he'.symm.trans he)

theorem RunEndsWith.not_runsForever {e : RunEnd} (h : RunEndsWith s e) : ¬ RunsForever s := by
  intro hforever
  obtain ⟨k, t, hk, he⟩ := h
  obtain ⟨t', hk', hmode⟩ := hforever k
  cases hk.symm.trans hk'
  simp [idle_of_runEnd_eq_some he] at hmode

/-- A run that never ends goes on for ever. -/
theorem runsForever_of_not_runEndsWith (hs : s.canRun) (h : ∀ e, ¬ RunEndsWith s e) : RunsForever s := by
  intro k
  obtain ⟨t, ht⟩ := runFor_total k hs
  cases hmode : t.mode with
  | running => exact ⟨t, ht, hmode⟩
  | idle =>
    obtain ⟨e, he⟩ := exists_runEnd_of_idle hmode
    exact absurd ⟨k, t, ht, he⟩ (h e)

/-! ## The obligations -/

/-- Settles O14: the frame of `exec`; the fetch before it writes no register and no cell. -/
theorem stepWritesOneRegisterOrOneCell : Obligations.StepWritesOneRegisterOrOneCell := by
  intro s t hrun h
  rw [step_of_runsOn hrun] at h
  have hregs : sameRegsBut (destReg (decode s.fetchWord)) (fetch (beginTransition s)) t := exec_sameRegsBut h
  have hmem := exec_sameMemBut h
  rw [storeAddr_fetch_beginTransition] at hmem
  obtain ⟨-, hstop, -⟩ := exec_keeps_ir_stopRequested_hostScript h
  exact ⟨hregs, hmem, destReg_eq_none_or_storeAddr_eq_none _ s, hstop⟩

/-- Settles O18: the fetch leaves its two events, and execution adds the one of its own write. -/
theorem eventsComeInWriteOrder : Obligations.EventsComeInWriteOrder := by
  intro s hrun
  obtain ⟨t, ht⟩ := exec_total (decode s.fetchWord) (fetch (beginTransition s))
  rw [← storeAddr_fetch_beginTransition, ← takenTarget_fetch_beginTransition]
  refine ⟨t, (step_of_runsOn hrun).trans ht, exec_ir ht, fun r hd => ?_, fun a ha => ?_, fun xy hb => ?_,
    fun hd ha hb => ?_⟩
  · obtain ⟨-, -, -, -, -, hevents⟩ := exec_onlyRegWritten ht hd
    exact hevents
  · obtain ⟨-, -, -, -, -, hevents⟩ := exec_onlyCellWritten ht ha
    exact hevents
  · cases ht.symm.trans (exec_of_takenTarget_eq_some hb)
    exact ⟨rfl, rfl⟩
  · obtain ⟨-, -, hpc, -, hevents⟩ := exec_nothingWritten ht hd ha hb
    exact ⟨hpc, hevents⟩

/-- Settles O40: the instruction executes between the begin and the end of the single step, which change only the
control state. -/
theorem singleStepExecutesOneInstruction : Obligations.SingleStepExecutesOneInstruction := by
  intro s stopArrives rest hmode hr hscript
  obtain ⟨t, ht⟩ := exec_total (decode s.fetchWord)
    (fetch { s with mode := .running, halted := false, events := [], hostScript := rest })
  obtain ⟨-, hstop, hrest⟩ := exec_keeps_ir_stopRequested_hostScript ht
  have hhalted : t.halted = true ↔ decode s.fetchWord = .halt := exec_halted_iff ht rfl
  refine ⟨t, endSingleStep stopArrives t, ht, ?_, rfl, hhalted, ?_, hrest,
    rfl, rfl, rfl, rfl, rfl, rfl⟩
  · rw [step_of_idle_of_hostScript hmode hscript]
    exact andThen_next.mpr ⟨t, cycle_next.mpr ⟨hr, ht⟩, rfl⟩
  · rw [endSingleStep_stopRequested, hstop]
    rfl

/-- Settles O42: a recorded request ends the run in the next pass, and so does the one that a step leaves on record. -/
theorem stopTakesEffectAtABoundary : Obligations.StopTakesEffectAtABoundary := by
  refine fun s hmode => ⟨fun hstop hact => ?_, step_of_stop hmode, fun hstop hr hact => ?_⟩
  · exact step_of_stopRequested hmode hstop (admittedDuringRun_iff.mpr (hact.imp_right .inr))
  · obtain ⟨t, ht⟩ := exec_total (decode s.fetchWord) (fetch (beginTransition s))
    exact ⟨t, ht, step_of_stopMidStep hmode hstop hr hact ht,
      fun htmode htact => step_of_stopRequested (s := requestStop t) htmode rfl htact⟩

/-- Settles O48: a run is never stuck, so one that never ends goes on for ever; and one that is over stays where it
ended, so it has one end. -/
theorem aRunEndsInExactlyOneWay : Obligations.ARunEndsInExactlyOneWay := by
  intro s _ hr _ hscript
  by_cases hend : ∃ e, RunEndsWith s e
  · obtain ⟨e, he⟩ := hend
    exact .inr ⟨he.not_runsForever, e, he, fun _ => he.unique⟩
  · have hnever : ∀ e, ¬ RunEndsWith s e := not_exists.mp hend
    exact .inl ⟨runsForever_of_not_runEndsWith ⟨fun _ => hr, hscript⟩ hnever, hnever⟩

/-- Settles O10: the fields of the fetched state, and the two sums that wrap. -/
theorem fetchLoadsIrAndIncrementsPc : Obligations.FetchLoadsIrAndIncrementsPc := by
  refine fun s => ⟨rfl, rfl, fun h => ?_, fun h => ⟨?_, ?_⟩, sameRegsBut_of_regs_eq rfl none,
    sameMemBut_of_mem_eq rfl none, rfl, rfl, rfl, rfl, rfl⟩
  · rw [fetch_pc, h]
    rfl
  · rw [fetch_pc, h]
    rfl
  · rw [fetch_ir, State.fetchWord, h]
    rfl

/-- Settles O11: the instruction decoded from the two bytes is that of the fetched word. -/
theorem stepRunsDecodedInstruction : Obligations.StepRunsDecodedInstruction := by
  intro s i rest hrun hdecode
  cases hdecode
  exact step_of_runsOn hrun

/-- Settles O12: the step executes the fetched word, and every instruction has a next state. -/
theorem noStepFails : Obligations.NoStepFails := fun _ hrun =>
  step_of_runsOn hrun ▸ exec_total _ _

/-- Settles O41: the machine is not refused, so the run starts. -/
theorem runStartsWhereItIs : Obligations.RunStartsWhereItIs := by
  intro s rest hmode hr hscript
  rw [step_of_idle_of_hostScript hmode hscript]
  exact beginRun_next.mpr ⟨hr, rfl⟩

/-- Settles O44: both controls ask whether the machine is refused. -/
theorem refusedMachineTakesNoStep : Obligations.RefusedMachineTakesNoStep := by
  refine fun _ _ hmode hr => ⟨fun hscript => ?_, fun b hscript => ?_⟩ <;>
    rw [step_of_idle_of_hostScript hmode hscript]
  · exact beginRun_of_refused hr
  · exact singleStep_of_refused b hr

end Sys2Proof.Machine

/-! Proofs about the data transfers (41_transfer.md): the one write each of them is, and the effect and frame of it. -/

namespace Sys2Proof.Machine

variable {i : Instr} {s : State}

/-! ## The write that each transfer is, with its operands read in the state before it -/

theorem exec_immediateLoad (r : Reg) (xy : Byte) (s : State) :
    exec (.immediateLoad r xy) s = .next (s.writeReg r xy) := rfl

theorem exec_directLoad (r : Reg) (xy : Byte) (s : State) :
    exec (.directLoad r xy) s = .next (s.writeReg r (s.readMem xy)) := rfl

theorem exec_indirectLoad (b c : Reg) (s : State) :
    exec (.indirectLoad b c) s = .next (s.writeReg b (s.readMem (s.readReg c))) := rfl

theorem exec_directStore (r : Reg) (xy : Byte) (s : State) :
    exec (.directStore r xy) s = .next (s.writeMem (directAddr xy) (s.readReg r)) := rfl

theorem exec_indirectStore (b c : Reg) (s : State) :
    exec (.indirectStore b c) s = .next (s.writeMem (indirectAddr s c) (s.readReg b)) := rfl

theorem exec_move (src dst : Reg) (s : State) :
    exec (.move src dst) s = .next (s.writeReg dst (s.readReg src)) := rfl

/-! ## The effect and the frame of an instruction that is one write -/

theorem exists_next_onlyRegWritten {r : Reg} {v : Byte} (h : exec i s = .next (s.writeReg r v)) :
    ∃ t, exec i s = .next t ∧ t.readReg r = v ∧ onlyRegWritten r s t :=
  ⟨_, h, by rw [readReg_writeReg, if_pos rfl], onlyRegWritten_writeReg s r v⟩

theorem exists_next_onlyCellWritten {a v : Byte} (h : exec i s = .next (s.writeMem a v)) :
    ∃ t, exec i s = .next t ∧ t.readMem a = v ∧ onlyCellWritten a s t :=
  ⟨_, h, by rw [readMem_writeMem, if_pos rfl], onlyCellWritten_writeMem s a v⟩

/-! ## The obligations -/

/-- Settles O23: the value written is the immediate. -/
theorem immediateLoadSetsItsRegister : Obligations.ImmediateLoadSetsItsRegister := fun r xy s =>
  exists_next_onlyRegWritten (exec_immediateLoad r xy s)

/-- Settles O24: the value written is the cell's. -/
theorem directLoadReadsItsCell : Obligations.DirectLoadReadsItsCell := fun r xy s =>
  exists_next_onlyRegWritten (exec_directLoad r xy s)

/-- Settles O25: the address register is read in the state before the write, so `b = c` is no case of its own. -/
theorem indirectLoadReadsTheCellItsRegisterNames : Obligations.IndirectLoadReadsTheCellItsRegisterNames := fun b c s =>
  exists_next_onlyRegWritten (exec_indirectLoad b c s)

/-- Settles O26: the cell written is the one at the operand byte itself. -/
theorem directStoreWritesItsCell : Obligations.DirectStoreWritesItsCell := by
  intro r xy s
  obtain ⟨t, hexec, hcell, hframe⟩ := exists_next_onlyCellWritten (exec_directStore r xy s)
  exact ⟨t, hexec, hcell, rfl, hframe⟩

/-- Settles O27: a store writes no register, so `b = c` is no case of its own. -/
theorem indirectStoreWritesTheCellItsRegisterNames : Obligations.IndirectStoreWritesTheCellItsRegisterNames := by
  intro b c s
  obtain ⟨t, hexec, hcell, hframe⟩ := exists_next_onlyCellWritten (exec_indirectStore b c s)
  exact ⟨t, hexec, hcell, rfl, hframe⟩

/-- Settles O28: the value written is the source's. -/
theorem moveCopiesSourceToDestination : Obligations.MoveCopiesSourceToDestination := fun src dst s =>
  exists_next_onlyRegWritten (exec_move src dst s)

end Sys2Proof.Machine

/-! Proofs about the ALU instructions (42_alu.md): the one register write each of them is, and that write bit by bit. -/

namespace Sys2Proof.Machine

variable {i : Instr} {s : State}

/-! ## The write that each ALU instruction is, with its operands read in the state before it -/

theorem exec_integerAdd (d sr tr : Reg) (s : State) :
    exec (.integerAdd d sr tr) s = .next (s.writeReg d (s.readReg sr + s.readReg tr)) := rfl

theorem exec_floatingPointAdd (d sr tr : Reg) (s : State) :
    exec (.floatingPointAdd d sr tr) s = .next (s.writeReg d (Config.fpAdd (s.readReg sr) (s.readReg tr))) := rfl

theorem exec_or (d sr tr : Reg) (s : State) :
    exec (.or d sr tr) s = .next (s.writeReg d (s.readReg sr ||| s.readReg tr)) := rfl

theorem exec_and (d sr tr : Reg) (s : State) :
    exec (.and d sr tr) s = .next (s.writeReg d (s.readReg sr &&& s.readReg tr)) := rfl

theorem exec_xor (d sr tr : Reg) (s : State) :
    exec (.xor d sr tr) s = .next (s.writeReg d (s.readReg sr ^^^ s.readReg tr)) := rfl

theorem exec_ror (r : Reg) (n : Nat) (s : State) :
    exec (.ror r n) s = .next (s.writeReg r (rotr8 (s.readReg r) n)) := rfl

/-! ## The rotate of R190 -/

/-- The model's shifts by `n mod 8` and by `8 - n mod 8` are the library's rotate of an 8-bit vector. -/
theorem rotr8_eq_rotateRight (v : Byte) (n : Nat) : rotr8 v n = v.rotateRight n := rfl

theorem rotr8_mod (v : Byte) (n : Nat) : rotr8 v (n % 8) = rotr8 v n := by
  simp only [rotr8_eq_rotateRight, BitVec.rotateRight_mod_eq_rotateRight]

theorem rotr8_zero (v : Byte) : rotr8 v 0 = v := by
  simp [rotr8, rotateAmount]

theorem getLsbD_rotr8 (v : Byte) (n : Nat) {k : Nat} (hk : k < 8) :
    (rotr8 v n).getLsbD k = v.getLsbD ((k + n) % 8) := by
  rw [rotr8_eq_rotateRight, BitVec.getLsbD_rotateRight]
  by_cases hlow : k < 8 - n % 8
  · have hindex : n % 8 + k = (k + n) % 8 := by omega
    simp [hlow, hindex]
  · have hindex : k - (8 - n % 8) = (k + n) % 8 := by omega
    simp [hlow, hk, hindex]

/-! ## A register write, read bit by bit -/

theorem exists_next_onlyRegWritten_bits {r : Reg} {v : Byte} {bit : Nat → Bool}
    (h : exec i s = .next (s.writeReg r v)) (hbit : ∀ k < 8, v.getLsbD k = bit k) :
    ∃ t, exec i s = .next t ∧ onlyRegWritten r s t ∧ ∀ k < 8, (t.readReg r).getLsbD k = bit k := by
  obtain ⟨t, hexec, hval, hframe⟩ := exists_next_onlyRegWritten h
  exact ⟨t, hexec, hframe, hval ▸ hbit⟩

/-! ## The obligations -/

/-- Settles O32: the byte written is the rotate of R190, whose bits `getLsbD_rotr8` gives. -/
theorem rorMovesBitsRightAroundTheByte : Obligations.RorMovesBitsRightAroundTheByte := fun r n s =>
  exists_next_onlyRegWritten_bits (exec_ror r n s) fun _ hk => getLsbD_rotr8 (s.readReg r) n hk

/-- Settles O29: the byte written is the sum of two 8-bit vectors, which wraps at `2 ^ 8`. -/
theorem integerAddWrapsModulo256 : Obligations.IntegerAddWrapsModulo256 := by
  intro d sr tr s
  obtain ⟨t, hexec, hval, hframe⟩ := exists_next_onlyRegWritten (exec_integerAdd d sr tr s)
  exact ⟨t, hexec, hval ▸ BitVec.toNat_add _ _, hframe⟩

/-- Settles O30: the byte written is `fpAdd` of the operands, of which nothing is used. -/
theorem floatingPointAddAppliesFpAdd : Obligations.FloatingPointAddAppliesFpAdd := fun d sr tr s =>
  exists_next_onlyRegWritten (exec_floatingPointAdd d sr tr s)

/-- Settles O31: the byte written is the operation of two bit vectors, which acts on each bit alone. -/
theorem orAndXorCombineBits : Obligations.OrAndXorCombineBits := fun d sr tr s =>
  ⟨exists_next_onlyRegWritten_bits (exec_or d sr tr s) fun _ _ => BitVec.getLsbD_or,
   exists_next_onlyRegWritten_bits (exec_and d sr tr s) fun _ _ => BitVec.getLsbD_and,
   exists_next_onlyRegWritten_bits (exec_xor d sr tr s) fun _ _ => BitVec.getLsbD_xor⟩

/-- Settles O33: the byte written depends on the count modulo 8 alone, and a multiple of 8 is a rotate by 0. -/
theorem rorCountReducesModulo8 : Obligations.RorCountReducesModulo8 := by
  intro r n s
  constructor
  · rw [exec_ror, exec_ror, rotr8_mod]
  · obtain ⟨t, hexec, hval, -⟩ := exists_next_onlyRegWritten (exec_ror r (8 * n) s)
    have hkeep : rotr8 (s.readReg r) (8 * n) = s.readReg r := by
      rw [← rotr8_mod, Nat.mul_mod_right, rotr8_zero]
    exact ⟨t, hexec, hval.trans hkeep⟩

end Sys2Proof.Machine

/-! Proofs about control (43_control.md): the effect and the frame of a branch, and the Halt alone and in a run. -/

namespace Sys2Proof.Machine

variable {i : Instr} {s : State}

/-! ## The effect and the frame of an instruction that is a branch -/

theorem branchTaken_writePc (s : State) (xy : Byte) : branchTaken xy s (s.writePc xy) :=
  ⟨sameRegsBut_of_regs_eq rfl none, sameMemBut_of_mem_eq rfl none, rfl, rfl, ⟨rfl, rfl, rfl, rfl, rfl⟩, rfl⟩

theorem exists_next_branchTaken_or_unchanged {taken : Prop} [Decidable taken] {xy : Byte}
    (h : exec i s = .next (if taken then s.writePc xy else s)) :
    ∃ t, exec i s = .next t ∧ (taken → branchTaken xy s t) ∧ (¬ taken → t = s) := by
  refine ⟨_, h, fun htaken => ?_, fun hnot => if_neg hnot⟩
  rw [if_pos htaken]
  exact branchTaken_writePc s xy

/-! ## Halt -/

theorem exec_halt (s : State) : exec .halt s = .next s.halt := rfl

theorem nothingWritten_halt (s : State) : nothingWritten s s.halt :=
  ⟨sameRegsBut_of_regs_eq rfl none, sameMemBut_of_mem_eq rfl none, rfl, rfl, rfl⟩

theorem runEnd_halt (h : s.refused = false) : s.halt.runEnd = some .halted := by
  simp [State.runEnd, h]

/-- A step of a run that fetches a Halt halts the machine as the fetch left it. -/
theorem step_of_halt (h : s.runsOn) (hhalt : decode s.fetchWord = .halt) :
    step s = .next (fetch (beginTransition s)).halt := by
  rw [step_of_runsOn h, hhalt, exec_halt]

/-! ## The obligations -/

/-- Settles O34: the branch of R200, on equality. -/
theorem jumpEqualBranchesOnEquality : Obligations.JumpEqualBranchesOnEquality := fun r xy s =>
  exists_next_branchTaken_or_unchanged (exec_jumpEqual r xy s)

/-- Settles O35: the branch of R202; not at most is above, since the unsigned order is total. -/
theorem jumpLessEqualBranchesOnUnsignedOrder : Obligations.JumpLessEqualBranchesOnUnsignedOrder := by
  intro r xy s
  obtain ⟨t, hexec, htaken, hnot⟩ := exists_next_branchTaken_or_unchanged (exec_jumpLessEqual r xy s)
  exact ⟨t, hexec, htaken, fun habove => hnot (Nat.not_le_of_lt habove)⟩

/-- Settles O36: `x[0]` is equal to itself, and at most itself, so both branches are taken. -/
theorem jumpsOnR0AlwaysBranch : Obligations.JumpsOnR0AlwaysBranch := fun _ _ =>
  ⟨exec_of_takenTarget_eq_some (takenTarget_eq_some.mpr ⟨0, .inl ⟨rfl, rfl⟩⟩),
   exec_of_takenTarget_eq_some (takenTarget_eq_some.mpr ⟨0, .inr ⟨rfl, Nat.le_refl _⟩⟩)⟩

/-- Settles O37: `State.halt` sets `halted` and the mode alone. -/
theorem haltStopsTheMachine : Obligations.HaltStopsTheMachine := fun s =>
  ⟨s.halt, exec_halt s, State.halt_halted s, State.halt_mode s, State.halt_refused s, State.halt_stopRequested s,
    State.halt_hostScript s, nothingWritten_halt s⟩

/-- Settles O38: the halted state is the one that the fetch left, whose `pc` and `ir` the Halt keeps; a machine in a
run is not refused, so the run's end is the Halt's. -/
theorem haltEndsTheRunPastItself : Obligations.HaltEndsTheRunPastItself := by
  intro s hrun hhalt
  have hstep := step_of_halt hrun hhalt
  obtain ⟨-, -, hr, -⟩ := hrun
  exact ⟨_, hstep, runEnd_halt hr, rfl, rfl, hr, rfl, rfl,
    sameRegsBut_of_regs_eq rfl none, sameMemBut_of_mem_eq rfl none⟩

end Sys2Proof.Machine

/-! Proofs about stops and the host (60_exceptions.md): what a host action does in each mode, what the loader leaves in
memory, and which transitions change the mode. -/

namespace Sys2Proof.Machine

variable {i : Instr} {s t : State} {act : HostAction}

/-! ## The loader (R238) -/

@[simp] theorem hostLoad_regs (image : List (Byte × Byte)) (s : State) : (hostLoad image s).regs = s.regs := by
  rw [hostLoad_frame]

@[simp] theorem hostLoad_pc (image : List (Byte × Byte)) (s : State) : (hostLoad image s).pc = s.pc := by
  rw [hostLoad_frame]

@[simp] theorem hostLoad_ir (image : List (Byte × Byte)) (s : State) : (hostLoad image s).ir = s.ir := by
  rw [hostLoad_frame]

@[simp] theorem hostLoad_mode (image : List (Byte × Byte)) (s : State) : (hostLoad image s).mode = s.mode := by
  rw [hostLoad_frame]

/-- After a load, a cell holds the image's byte at its address, or what it held before if the image has none there. -/
theorem hostLoad_readMem {image : List (Byte × Byte)} (hfits : image.length ≤ 128) (s : State) (a : Byte) :
    (hostLoad image s).readMem a = ((imageBytes image)[a.toNat]?).getD (s.readMem a) := by
  have hlen : 0 + (imageBytes image).length ≤ 256 := by rw [imageBytes_length]; omega
  rw [hostLoad, writeBytesFrom_readMem 0 _ s hlen, if_pos (Nat.zero_le _), Nat.sub_zero]

theorem hostLoad_readMem_of_getElem? {image : List (Byte × Byte)} {n : Nat} {b : Byte} (hfits : image.length ≤ 128)
    (hb : (imageBytes image)[n]? = some b) (s : State) : (hostLoad image s).readMem (BitVec.ofNat 8 n) = b := by
  obtain ⟨hn, -⟩ := List.getElem?_eq_some_iff.mp hb
  have hlt : n < 256 := by rw [imageBytes_length] at hn; omega
  rw [hostLoad_readMem hfits, BitVec.toNat_ofNat, Nat.mod_eq_of_lt hlt, hb, Option.getD_some]

theorem hostLoad_readMem_of_le {image : List (Byte × Byte)} {a : Byte} (hfits : image.length ≤ 128)
    (ha : 2 * image.length ≤ a.toNat) (s : State) : (hostLoad image s).readMem a = s.readMem a := by
  rw [← imageBytes_length] at ha
  rw [hostLoad_readMem hfits, List.getElem?_eq_none ha, Option.getD_none]

/-! ## The mode (R244) -/

/-- While Idle, nothing but the start of a run leaves the machine Running. -/
theorem whileIdle_eq_run_of_running (hmode : s.mode = .idle) (h : whileIdle act s = .next t)
    (ht : t.mode = .running) : act = .run := by
  rcases whileIdle_inv h with ⟨⟨regs, mem, pc, events, rfl⟩, -⟩ | ⟨hrun, -, -⟩ | ⟨b, u, -, -, -, rfl⟩
  · cases hmode.symm.trans ht
  · exact hrun
  · cases ht

/-- Of the instructions only Halt and the unassigned opcode leave Running. -/
theorem exec_ends_of_idle (h : exec i s = .next t) (hmode : s.mode = .running) (ht : t.mode = .idle) :
    i = .halt ∨ i = .unassignedOpcode0 := by
  rcases exec_keeps_flags_or_ends h with ⟨hkept, -, -⟩ | ⟨hi, -⟩ | ⟨hi, -⟩
  · cases (hkept.trans hmode).symm.trans ht
  · exact .inl hi
  · exact .inr hi

/-- While Running, nothing but a stop request, a Halt or the refusal leaves the machine Idle. -/
theorem whileRunning_ends_of_idle (hmode : s.mode = .running) (h : whileRunning act s = .next t)
    (ht : t.mode = .idle) : s.stopRequested = true ∨ act = .stop ∨
      decode s.fetchWord = .halt ∨ decode s.fetchWord = .unassignedOpcode0 := by
  rcases whileRunning_inv h with ⟨hstop, -⟩ | ⟨-, -, u, hu, hend⟩
  · exact hstop.imp_right .inl
  · have hidle : u.mode = .idle := by
      obtain ⟨-, rfl⟩ | ⟨-, rfl⟩ := hend <;> exact ht
    exact .inr (.inr (exec_ends_of_idle hu hmode hidle))

/-! ## What is not admitted while Running (R236), and a stop request after the end of a run (R223) -/

theorem whileRunning_of_not_admitted (h : act.admittedDuringRun = false) :
    whileRunning act s = .refused .hostActionNotAdmitted := by
  cases act with
  | pass => cases h
  | stop => cases h
  | stopMidStep => cases h
  | _ => rfl

theorem runEnd_requestStop (s : State) : (requestStop s).runEnd = s.runEnd := rfl

/-! ## The obligations -/

/-- Settles O46: by the mode the machine is in, from the inversion of a transition in that mode. -/
theorem modeChangesOnlyAsNamed : Obligations.ModeChangesOnlyAsNamed := by
  refine fun s t h => ⟨fun hmode ht => ?_, fun hmode ht => ?_⟩
  · exact whileIdle_eq_run_of_running (s := beginTransition s) hmode ((step_of_idle hmode).symm.trans h) ht
  · exact whileRunning_ends_of_idle (s := beginTransition s) hmode ((step_of_running hmode).symm.trans h) ht

/-- Settles O54: the image fits, so it is loaded, and bytes `2k` and `2k + 1` of it are those of instruction `k`. -/
theorem loaderPlacesTheProgramFromAddress0 : Obligations.LoaderPlacesTheProgramFromAddress0 := by
  intro s image rest hmode hscript hfits
  have himage : imageFits image = true := (imageFits_iff image).mpr (by omega)
  refine ⟨hostLoad image { s with events := [], hostScript := rest }, ?_, fun k b1 b2 hk => ?_,
    fun a ha => hostLoad_readMem_of_le hfits ha _, sameRegsBut_of_regs_eq (hostLoad_regs _ _) none,
    hostLoad_pc _ _, hostLoad_ir _ _, hostLoad_mode _ _⟩
  · rw [step_of_idle_of_hostScript hmode hscript]
    exact loadImage_next.mpr ⟨himage, rfl⟩
  · obtain ⟨hb1, hb2⟩ := imageBytes_getElem? image k b1 b2 hk
    exact ⟨hostLoad_readMem_of_getElem? hfits hb1 _, hostLoad_readMem_of_getElem? hfits hb2 _⟩

/-- Settles O43: the Halt has ended the run before the request is put on record, and the request changes no end. -/
theorem haltWinsOverAStopDuringIt : Obligations.HaltWinsOverAStopDuringIt := by
  intro s rest hmode hstop hr hscript hhalt
  have hact : nextHostAction s = .stopMidStep := by rw [nextHostAction, hscript, List.headD_cons]
  have hexec : exec (decode s.fetchWord) (fetch (beginTransition s)) = .next (fetch (beginTransition s)).halt := by
    rw [hhalt, exec_halt]
  exact ⟨_, step_of_stopMidStep hmode hstop hr hact hexec, rfl, rfl, (runEnd_requestStop _).trans (runEnd_halt hr)⟩

/-- Settles O47: what is left of the transition is its beginning. -/
theorem idlePreservesAllState : Obligations.IdlePreservesAllState := by
  intro s hmode hact
  rw [step_of_idle hmode, hact]
  rfl

/-- Settles O49: the control is one write of `pc`. -/
theorem resetPcChangesOnlyPc : Obligations.ResetPcChangesOnlyPc :=
  fun _ _ hmode hscript => step_of_idle_of_hostScript hmode hscript

/-- Settles O50: every register of the cleared file reads 0x00, and the control keeps the other fields. -/
theorem clearRegistersZeroesAllSixteen : Obligations.ClearRegistersZeroesAllSixteen := fun _ _ hmode hscript =>
  ⟨_, step_of_idle_of_hostScript hmode hscript, hostClearRegisters_readReg _, rfl, rfl,
    sameMemBut_of_mem_eq rfl none, rfl, rfl, rfl, rfl⟩

/-- Settles O51: every cell of the cleared memory reads 0x00, and the control keeps the other fields. -/
theorem clearMemoryZeroesAll256Cells : Obligations.ClearMemoryZeroesAll256Cells := fun _ _ hmode hscript =>
  ⟨_, step_of_idle_of_hostScript hmode hscript, hostClearMemory_readMem _, rfl, rfl,
    sameRegsBut_of_regs_eq rfl none, rfl, rfl, rfl, rfl⟩

/-- Settles O52: the control is one register write, and the host's read is a register read. -/
theorem hostWritesOneRegister : Obligations.HostWritesOneRegister := fun _ _ _ _ hmode hscript =>
  ⟨_, step_of_idle_of_hostScript hmode hscript, (readReg_writeReg _ _ _ _).trans (if_pos rfl),
    fun _ hq => (readReg_writeReg _ _ _ _).trans (if_neg hq), rfl⟩

/-- Settles O53: the control is one memory write, and the host's read is a memory read. -/
theorem hostWritesOneCell : Obligations.HostWritesOneCell := fun _ _ _ _ hmode hscript =>
  ⟨_, step_of_idle_of_hostScript hmode hscript, (readMem_writeMem _ _ _ _).trans (if_pos rfl),
    fun _ hb => (readMem_writeMem _ _ _ _).trans (if_neg hb), rfl⟩

/-- Settles O56: the actions that are not admitted are those the run loop turns away. -/
theorem hostWritesHaveNoMoveDuringARun : Obligations.HostWritesHaveNoMoveDuringARun :=
  fun _ hmode hact => (step_of_running hmode).trans (whileRunning_of_not_admitted hact)

end Sys2Proof.Machine

/-! # An image that does not fit is turned away (70_reset_and_hazards.md R254) -/

namespace Sys2Proof.Machine

/-- The loader refuses exactly the images that do not fit; `loadImage_next` says what it does with the others. -/
theorem loadImage_refused_iff {image : List (Byte × Byte)} {s : State} :
    loadImage image s = .refused .imageTooLong ↔ imageFits image = false := by
  unfold loadImage
  cases imageFits image <;> simp

/-- Settles O55: the transition is the loader's answer, and the image is longer than those that fit. -/
theorem tooLongAnImageIsNotLoaded : Obligations.TooLongAnImageIsNotLoaded := by
  intro s image rest hmode hscript hlong
  have himage : imageFits image = false := Bool.eq_false_iff.mpr fun h => by
    have hshort := (imageFits_iff image).mp h
    omega
  calc step s = loadImage image { s with events := [], hostScript := rest } :=
        step_of_idle_of_hostScript hmode hscript
    _ = .refused .imageTooLong := loadImage_refused_iff.mpr himage

end Sys2Proof.Machine
